-- ==== Sys2Proof/Word.lean ====
section
/-! DEFINITION. The widths of BBI2C: a bit, a byte, the 11-bit command word and the 3-bit response word
(00_scope.md R6 and section 6.1). All values are unsigned; there is no signed quantity in the block. -/

namespace Sys2Proof

/-- A bit, "a single value in {0,1}" (00_scope.md glossary; section 6.1). Also the level of a line. -/
abbrev Bit := BitVec 1

/-- A byte, "an 8-bit unsigned value" (00_scope.md R6, `BYTE_W`). -/
abbrev Byte := BitVec 8

/-- The command word `cmd`, `CMD_W` = 11 bits (00_scope.md R6; 30_encoding.md R45). -/
abbrev CmdWord := BitVec 11

/-- The response word `{ILL, NACK, BIT}`, `RSP_W` = 3 bits (00_scope.md R6; 30_encoding.md R49). -/
abbrev Rsp := BitVec 3

end Sys2Proof
end

