-- ==== Sys2Proof/Syntax.lean ====
section
/-! DEFINITION. The five operations of BBI2C, one constructor per row of spec/opcode_table.json (30_encoding.md R46), with
their operands (R47), and the bare operation names that `OPR` and the trace hold. -/

namespace Sys2Proof

/-- The name of an operation: what `OPR` holds while it is in flight (10_state.md R17) and what its response event
carries (00_scope.md R8). -/
inductive Op where
  | claim
  | sendBit
  | readBit
  | release
  | sendByte
  deriving DecidableEq, Repr

/-- An instruction: a legal command word, taken apart (30_encoding.md R46, R47). The operand types hold exactly the values
R47 admits, so there is no ill-formed instruction; what can be ill formed on this hardware is a command WORD
(WellFormed.lean). -/
inductive Instr where
  /-- `CLAIM`, the document's `claimBus()`. -/
  | claim
  /-- `SENDBIT level`, the document's `sendBit(level)`. -/
  | sendBit (level : Bit)
  /-- `READBIT`, the document's `readBit() → bit`. -/
  | readBit
  /-- `RELEASE`, the document's `releaseBus()`. -/
  | release
  /-- `SENDBYTE byte`, the document's `sendByte(byte)`. -/
  | sendByte (byte : Byte)
  deriving DecidableEq, Repr

/-- The operation an instruction requests. -/
def Instr.op : Instr → Op
  | .claim => .claim
  | .sendBit _ => .sendBit
  | .readBit => .readBit
  | .release => .release
  | .sendByte _ => .sendByte

/-- The mnemonic of an operation (30_encoding.md R54). -/
def Op.mnemonic : Op → String
  | .claim => "CLAIM"
  | .sendBit => "SENDBIT"
  | .readBit => "READBIT"
  | .release => "RELEASE"
  | .sendByte => "SENDBYTE"

end Sys2Proof
end

