-- ==== Sys2Proof/WellFormed.lean ====
section
/-! DEFINITION. Which command words are legal (30_encoding.md R51). An `Instr` is well formed by its types (R47), so the check
of this hardware is a check of words. It is written from R51's own sentence, apart from the decoder, so that the two can be
held against each other. -/

namespace Sys2Proof

/-- R51, first part: `OP` in {001, 011, 100} with `ARG == 0x00`. -/
def legalNoOperand (w : CmdWord) : Bool :=
  (w.extractLsb' 8 3 == 0b001#3 || w.extractLsb' 8 3 == 0b011#3 || w.extractLsb' 8 3 == 0b100#3) &&
    w.extractLsb' 0 8 == 0x00#8

/-- R51, second part: `OP == 010` with `ARG[7:1] == 0`. -/
def legalLevel (w : CmdWord) : Bool :=
  w.extractLsb' 8 3 == 0b010#3 && w.extractLsb' 1 7 == 0#7

/-- R51, third part: `OP == 101` with any `ARG`. -/
def legalByte (w : CmdWord) : Bool :=
  w.extractLsb' 8 3 == 0b101#3

/-- A command word is legal (30_encoding.md R51); every other word is illegal. -/
def legalWord (w : CmdWord) : Bool :=
  legalNoOperand w || legalLevel w || legalByte w

end Sys2Proof
end

