-- ==== Sys2Proof/Decode.lean ====
section
/-! DEFINITION. The command decoder, total on the 11-bit words and rejecting by name (30_encoding.md R45 to R47, R51), the
encoder written from the same table, and the host's view of a table row. -/

namespace Sys2Proof

/-- `OP = cmd[10:8]` (30_encoding.md R45). -/
def opField (w : CmdWord) : BitVec 3 := w.extractLsb' 8 3

/-- `ARG = cmd[7:0]` (30_encoding.md R45). -/
def argField (w : CmdWord) : Byte := w.extractLsb' 0 8

/-- Why a word is illegal (30_encoding.md R51). The block itself does not tell the three apart: all answer `RSP = 0b100`. -/
inductive DecodeError where
  /-- `OP` is one of the reserved codes 000, 110, 111. -/
  | reservedOp
  /-- `ARG` is not zero in a word of an operation without operand. -/
  | argNotZero (o : Op)
  /-- `ARG[7:1]` is not zero in a SENDBIT word. -/
  | levelTooWide
  deriving DecidableEq, Repr

/-- An operation without operand needs `ARG == 0x00` (30_encoding.md R46). -/
def decodeNoOperand (o : Op) (i : Instr) (arg : Byte) : Except DecodeError Instr :=
  if arg = 0x00#8 then .ok i else .error (.argNotZero o)

/-- SENDBIT: `level = ARG[0]`, and `ARG[7:1]` must be 0 (30_encoding.md R46, R47). -/
def decodeSendBit (arg : Byte) : Except DecodeError Instr :=
  if arg.extractLsb' 1 7 = 0#7 then .ok (.sendBit (arg.extractLsb' 0 1)) else .error .levelTooWide

/-- The opcode map (30_encoding.md R46). -/
def decode (w : CmdWord) : Except DecodeError Instr :=
  if opField w = 0b001#3 then decodeNoOperand .claim .claim (argField w)
  else if opField w = 0b010#3 then decodeSendBit (argField w)
  else if opField w = 0b011#3 then decodeNoOperand .readBit .readBit (argField w)
  else if opField w = 0b100#3 then decodeNoOperand .release .release (argField w)
  else if opField w = 0b101#3 then .ok (.sendByte (argField w))
  else .error .reservedOp

/-- The operation code of an operation (30_encoding.md R46). -/
def opCode : Op → BitVec 3
  | .claim => 0b001#3
  | .sendBit => 0b010#3
  | .readBit => 0b011#3
  | .release => 0b100#3
  | .sendByte => 0b101#3

/-- `ARG` of an instruction's word: the level in bit 0, the byte, or zero (30_encoding.md R45, R47). -/
def argOf : Instr → Byte
  | .claim => 0x00#8
  | .sendBit level => level.setWidth 8
  | .readBit => 0x00#8
  | .release => 0x00#8
  | .sendByte byte => byte

/-- The command word of an instruction, `OP` above `ARG` (30_encoding.md R45, R54). -/
def encode (i : Instr) : CmdWord := opCode i.op ++ argOf i

/-- One row of R46: `cmd & mask == match` selects the row. -/
structure OpcodeRow where
  op : Op
  pattern : CmdWord
  mask : CmdWord
  deriving DecidableEq, Repr

/-- The legal rows of R46, as spec/opcode_table.json has them. -/
def opcodeRows : List OpcodeRow :=
  [⟨.claim, 0x100#11, 0x7FF#11⟩, ⟨.sendBit, 0x200#11, 0x7FE#11⟩, ⟨.readBit, 0x300#11, 0x7FF#11⟩,
   ⟨.release, 0x400#11, 0x7FF#11⟩, ⟨.sendByte, 0x500#11, 0x700#11⟩]

/-- `cmd & mask == match` (30_encoding.md R46). -/
def rowMatches (r : OpcodeRow) (w : CmdWord) : Bool := w &&& r.mask == r.pattern

/-- The command word whose bits are `w`, numbered as spec/opcode_table.json numbers them. The port has eleven wires
(20_memory.md R32), so bits above bit 10 of a container are on no wire (log entry 17). -/
def tableWord (_nbits w : Nat) : CmdWord := BitVec.ofNat 11 w

/-- What the decoder reads from the table's word `w` (log entry 17). -/
def decodeTableWord (nbits w : Nat) : Option Instr := (decode (tableWord nbits w)).toOption

end Sys2Proof
end

