-- ==== Sys2Proof/Config.lean ====
section
/-! DEFINITION. What an implementation or the outside world fixes: the free value of a sample the model's run was given no
answer for, and the timing parameter `T_HALF`. -/

namespace Sys2Proof

/-- The level the bus environment gives the data line at the n-th sample for which `State.draws` holds no answer: a FREE
VALUE, "a draw, under no law" (20_memory.md R36; 93_implementation_defined.md U8, U9; log entry 2). It has no body, so nothing
can be proved of it. -/
opaque Config.extSda : Nat → Bit

/-- The two delays of the block: one timing unit and half a timing unit (00_scope.md R7). -/
inductive Span where
  | unit
  | half
  deriving DecidableEq, Repr

/-- The static parameter `T_HALF >= 1` (00_scope.md R6, open; `T_HALF = 0` is not an allowed value, 70_reset_and_hazards.md
R141; log entry 13). It is an argument of the circuit, never state. -/
structure Params where
  tHalf : Nat
  pos : 0 < tHalf
  deriving DecidableEq, Repr

/-- `T_UNIT = 2 * T_HALF` (00_scope.md R6). -/
def Params.tUnit (p : Params) : Nat := 2 * p.tHalf

/-- The length of a delay in clock cycles (00_scope.md R7). -/
def Params.cycles (p : Params) : Span → Nat
  | .unit => p.tUnit
  | .half => p.tHalf

end Sys2Proof
end

