-- ==== Sys2Proof/Machine/State.lean ====
section
/-! DEFINITION. The state of BBI2C as plain data (10_state.md), the trace's events (00_scope.md R8), the micro-operations
(00_scope.md R7), the reasons a step can stop, and the state after reset (10_state.md R23). -/

namespace Sys2Proof.Machine

/-- The two pins: the data pin and the clock pin (00_scope.md R7). -/
inductive Pin where
  | sda
  | scl
  deriving DecidableEq, Repr

/-- The direction of a pin: `IN` (0) or `OUT` (1) (10_state.md R11). -/
inductive Dir where
  | inp
  | out
  deriving DecidableEq, Repr

/-- `OPR`: `IDLE`, or the operation in flight (10_state.md R17). -/
inductive Opr where
  | idle
  | busy (o : Op)
  deriving DecidableEq, Repr

/-- The micro-operations, of which every operation is a sequence, and of nothing else (00_scope.md R7). There is no
`PinGet(SCL)`. -/
inductive MicroOp where
  /-- `PinCfgOut()`: both pins outputs, in one micro-operation. -/
  | cfgOut
  /-- `PinDir(p, d)`. -/
  | dir (p : Pin) (d : Dir)
  /-- `PinSet(p, v)`. -/
  | set (p : Pin) (v : Bit)
  /-- `v <- PinGet(SDA)`. -/
  | get
  /-- `Delay(UNIT)` or `Delay(HALF)`. -/
  | delay (d : Span)
  deriving DecidableEq, Repr

/-- The events of the trace: one per micro-operation, and one response event per completed command
(00_scope.md R7, R8; 30_encoding.md R52, R58). -/
inductive Event where
  /-- `cfg(OUT)` -/
  | cfgOut
  /-- `dir(p,d)` -/
  | dir (p : Pin) (d : Dir)
  /-- `set(p,v)` -/
  | set (p : Pin) (v : Bit)
  /-- `get(SDA)=v` -/
  | get (v : Bit)
  /-- `dly(U)` or `dly(H)` -/
  | dly (d : Span)
  /-- `rsp(<mnemonic>,RSP)` -/
  | rsp (o : Op) (r : Rsp)
  /-- `rsp(ILLEGAL,RSP)`: the response to a word that spells no operation. -/
  | rspIllegal (r : Rsp)
  deriving DecidableEq, Repr

/-- The state. The block's own registers come first (10_state.md section 1); then the ghost trace; then what the other two
agents, the host and the bus environment, still have to give (00_scope.md R5; 70_reset_and_hazards.md R154). -/
structure State where
  /-- `SDA_DIR` (10_state.md R11). -/
  sdaDir : Dir
  /-- `SCL_DIR` (10_state.md R11). -/
  sclDir : Dir
  /-- `SDA_OUT`, the data pin's output latch (10_state.md R12). -/
  sdaOut : Bit
  /-- `SCL_OUT`, the clock pin's output latch (10_state.md R12). -/
  sclOut : Bit
  /-- `RSP`, the response register (10_state.md R15). -/
  rsp : Rsp
  /-- `ARGR`, the operand latch (10_state.md R16). -/
  argr : Byte
  /-- `OPR`, the operation in flight (10_state.md R17). -/
  opr : Opr
  /-- `USTEP`, the micro-step pointer (10_state.md R18). -/
  ustep : BitVec 6
  /-- `DLY`, the delay down-counter; its width depends on the parameter, hence a number (10_state.md R19). -/
  dly : Nat
  /-- `rsp_valid`, the one-cycle pulse after a completion (30_encoding.md R58; log entry 6). -/
  rspValid : Bool
  /-- The bit sampled by the operation in flight, the `v` or `a` of 40_bit_transport.md R65 and 41_byte_framer.md R80, held
  until the completion writes `RSP` (log entry 5). -/
  sample : Bit
  /-- `TR`, the trace, oldest event first; ghost state (00_scope.md R8). -/
  tr : List Event
  /-- The HOST's command stream: the words it still has to present on the `cmd` port, the next one first. The block has no
  queue (20_memory.md R41); this list is the other agent's (log entry 3). -/
  cmds : List CmdWord
  /-- The BUS ENVIRONMENT's answers to the samples to come, the next one first (70_reset_and_hazards.md R154; log entry 2). -/
  draws : List Bit
  /-- The model's own counter of samples taken, the argument of `Config.extSda` (log entry 2). -/
  drawIx : Nat
  deriving DecidableEq, Repr

/-- Reasons to stop with a fault. There is none: an error of this block is a value in `RSP` (00_scope.md R9;
60_exceptions.md R115), no operation hangs (70_reset_and_hazards.md R145) and no address exists (20_memory.md R30). -/
inductive Fault where
  deriving DecidableEq, Repr

/-- Reasons to refuse: the broken preconditions, to which the spec gives no meaning and which it tells a model to refuse
(40_bit_transport.md R72; 93_implementation_defined.md U1, U2, U3; log entry 4). All are SAFE: the model gives no next state
where the hardware would do something nobody specified. -/
inductive Refusal where
  /-- Raised by no instruction of this model: an instruction without a meaning. Safe. -/
  | notModelled (mnemonic : String)
  /-- Raised by SENDBIT, READBIT, RELEASE and SENDBYTE when the bus is not Claimed (U1, U2). Safe. -/
  | busNotClaimed (o : Op)
  /-- Raised by SENDBIT, READBIT, RELEASE and SENDBYTE on a Claimed bus when the clock latch is 1 (U3). Safe. -/
  | clockNotLow (o : Op)
  /-- Raised by CLAIM when the bus is not Released (U2). Safe. -/
  | busNotReleased
  /-- Raised by CLAIM on a Released bus when a latch is 0, so that no START could be made (40_bit_transport.md R61's
  precondition). Safe. -/
  | latchNotHigh
  deriving DecidableEq, Repr

/-- The machine right after reset (10_state.md R23; 70_reset_and_hazards.md R131). `sample`, `cmds`, `draws` and `drawIx` have no
reset value in the spec: log entries 5 and 20. -/
def State.reset : State where
  sdaDir := .inp
  sclDir := .inp
  sdaOut := 1#1
  sclOut := 1#1
  rsp := 0b000#3
  argr := 0x00#8
  opr := .idle
  ustep := 0#6
  dly := 0
  rspValid := false
  sample := 0#1
  tr := []
  cmds := []
  draws := []
  drawIx := 0

end Sys2Proof.Machine
end

