-- ==== Sys2Proof/Machine/Flags.lean ====
section
/-! DEFINITION. The response word's fields and values (10_state.md R15; 30_encoding.md R49, R50), the two error kinds
(60_exceptions.md R110, R111), and the bus ownership predicates (10_state.md R13). -/

namespace Sys2Proof.Machine

/-- `{ILL, NACK, BIT}`, `ILL` the high bit (30_encoding.md R49). -/
def mkRsp (ill nack bit : Bit) : Rsp := (ill ++ nack) ++ bit

/-- `RSP[2]`, the last command word was illegal (10_state.md R15). -/
def illOf (r : Rsp) : Bit := r.extractLsb' 2 1

/-- `RSP[1]`, the last command was a SENDBYTE that was not acknowledged (10_state.md R15). -/
def nackOf (r : Rsp) : Bit := r.extractLsb' 1 1

/-- `RSP[0]`, the level sampled by a READBIT or SENDBYTE (10_state.md R15). -/
def bitFlagOf (r : Rsp) : Bit := r.extractLsb' 0 1

/-- The value an operation that sampled `v` writes to `RSP` at its completion (30_encoding.md R50). -/
def responseOf (o : Op) (v : Bit) : Rsp :=
  match o with
  | .claim => 0b000#3
  | .sendBit => 0b000#3
  | .readBit => mkRsp 0#1 0#1 v
  | .release => 0b000#3
  | .sendByte => mkRsp 0#1 v v

/-- The two errors (00_scope.md R9): the only `raise`s there are. -/
inductive Err where
  /-- The acknowledgment sample of SENDBYTE was 1 (60_exceptions.md R110). -/
  | nack
  /-- An illegal command word was accepted (60_exceptions.md R111). -/
  | illegal
  deriving DecidableEq, Repr

/-- The response word of an error: `0b011` and `0b100` (60_exceptions.md R110, R111). -/
def errRsp (e : Err) : Rsp :=
  match e with
  | .nack => mkRsp 0#1 1#1 1#1
  | .illegal => mkRsp 1#1 0#1 0#1

/-- The event an error's response leaves in the trace (30_encoding.md R52, R58). -/
def errEvent (e : Err) : Event :=
  match e with
  | .nack => .rsp .sendByte (errRsp .nack)
  | .illegal => .rspIllegal (errRsp .illegal)

/-- The error a completed operation raises: a NACK for a SENDBYTE whose sample is 1, else none (41_byte_framer.md R80;
40_bit_transport.md R70: the four bit operations raise nothing). -/
def errorOf (o : Op) (v : Bit) : Option Err :=
  match o with
  | .claim => none
  | .sendBit => none
  | .readBit => none
  | .release => none
  | .sendByte => if v = 0#1 then none else some .nack

/-- `Claimed`: both pins are outputs (10_state.md R13). -/
abbrev Claimed (s : State) : Prop := s.sdaDir = .out ∧ s.sclDir = .out

/-- `Released`: both pins are inputs (10_state.md R13). -/
abbrev Released (s : State) : Prop := s.sdaDir = .inp ∧ s.sclDir = .inp

/-- `cmd_ready = (OPR == IDLE)` (10_state.md R17; 30_encoding.md R57). -/
def cmdReady (s : State) : Bool := s.opr = .idle

end Sys2Proof.Machine
end

