-- ==== Sys2Proof/Machine/Operands.lean ====
section
/-! DEFINITION. Operands, as the operations take them from `ARGR` (10_state.md R16; 30_encoding.md R47; 41_byte_framer.md
R81). -/

namespace Sys2Proof.Machine

/-- `(byte >> i) & 1`, the only arithmetic of the block (41_byte_framer.md R81). -/
def bitOf (byte : Byte) (i : Nat) : Bit := ((byte >>> i) &&& 0x01#8).setWidth 1

/-- `level = ARGR[0]` (40_bit_transport.md R63). -/
def levelOf (argr : Byte) : Bit := bitOf argr 0

/-- The order in which the bits of a byte go onto the data line: 7 down to 0 (20_memory.md R33). -/
def bitOrder : List Nat := [7, 6, 5, 4, 3, 2, 1, 0]

/-- The eight bits of a byte in the order they are sent (41_byte_framer.md R82). -/
def bitsOf (byte : Byte) : List Bit := bitOrder.map (bitOf byte)

/-- Bits put together again, the first the most significant (41_byte_framer.md R82: `s0*128 + s1*64 + ... + s7`). -/
def valueOfBits (bits : List Bit) : Nat := bits.foldl (fun n b => 2 * n + b.toNat) 0

end Sys2Proof.Machine
end

