-- ==== Sys2Proof/Machine/Ops.lean ====
section
/-! DEFINITION. The named operations of the block: the pads, the micro-operations (00_scope.md R7), acceptance and completion of
a command (30_encoding.md R57, R58), raising an error (00_scope.md R9) and the preconditions (40_bit_transport.md R72). -/

namespace Sys2Proof.Machine

/-! ### Pins -/

/-- The direction of a pin (10_state.md R11). -/
def dirOf (p : Pin) (s : State) : Dir :=
  match p with
  | .sda => s.sdaDir
  | .scl => s.sclDir

/-- The output latch of a pin (10_state.md R12). -/
def latchOf (p : Pin) (s : State) : Bit :=
  match p with
  | .sda => s.sdaOut
  | .scl => s.sclOut

/-- `PinCfgOut()`: both direction bits in one micro-operation (00_scope.md R7). -/
def pinCfgOut (s : State) : State := { s with sdaDir := .out, sclDir := .out }

/-- `PinDir(p, d)` (00_scope.md R7). -/
def pinDir (p : Pin) (d : Dir) (s : State) : State :=
  match p with
  | .sda => { s with sdaDir := d }
  | .scl => { s with sclDir := d }

/-- `PinSet(p, v)`; the latch keeps its value while the pin is an input (00_scope.md R7; 10_state.md R12). -/
def pinSet (p : Pin) (v : Bit) (s : State) : State :=
  match p with
  | .sda => { s with sdaOut := v }
  | .scl => { s with sclOut := v }

/-- The level of a line whose undriven level is `ext`: the latch while the pin is an output, else the environment's level
(20_memory.md R31; where both drive, the pad's level, 92_eei_decisions.md D28, log entry 12). -/
def lineLevel (ext : Bit) (p : Pin) (s : State) : Bit :=
  match dirOf p s with
  | .out => latchOf p s
  | .inp => ext

/-- `PinGet(SDA)` returns `sda_i = Line(SDA)` (20_memory.md R36). -/
def pinGet (ext : Bit) (s : State) : Bit := lineLevel ext .sda s

/-! ### The bus environment -/

/-- The bus environment's answer to the next sample: the next of the run's answers, or a free value when none is given
(20_memory.md R36; log entry 2). -/
def nextDraw (s : State) : Bit :=
  match s.draws with
  | v :: _ => v
  | [] => Config.extSda s.drawIx

/-- One answer of the environment is used up: one for each `PinGet` (70_reset_and_hazards.md R154). -/
def takeDraw (s : State) : State := { s with draws := s.draws.tail, drawIx := s.drawIx + 1 }

/-! ### Micro-operations -/

/-- Appends an event to the trace (00_scope.md R8). -/
def emit (e : Event) (s : State) : State := { s with tr := s.tr ++ [e] }

/-- `USTEP` advances by one (10_state.md R18). -/
def advance (s : State) : State := { s with ustep := s.ustep + 1#6 }

/-- A sample is taken and held for the completion (40_bit_transport.md R65; log entry 5). -/
def setSample (v : Bit) (s : State) : State := { s with sample := v }

/-- A delay has run out: `DLY` is 0 (10_state.md R19). -/
def delayDone (s : State) : State := { s with dly := 0 }

/-- One micro-operation, complete, where `ext` is the level the environment gives the data line (00_scope.md R7). A delay
changes no state but the trace, `DLY` and `USTEP` (10_state.md R19; log entries 7 and 8). -/
def microStep (ext : Bit) (m : MicroOp) (s : State) : State :=
  match m with
  | .cfgOut => advance (emit .cfgOut (pinCfgOut s))
  | .dir p d => advance (emit (.dir p d) (pinDir p d s))
  | .set p v => advance (emit (.set p v) (pinSet p v s))
  | .get => advance (emit (.get (pinGet ext s)) (setSample (pinGet ext s) s))
  | .delay d => advance (emit (.dly d) (delayDone s))

/-- A micro-operation that samples uses up one answer of the environment; no other does (20_memory.md R36). -/
def envStep (m : MicroOp) (s : State) : State :=
  match m with
  | .get => takeDraw s
  | .cfgOut => s
  | .dir _ _ => s
  | .set _ _ => s
  | .delay _ => s

/-- Micro-operations run one at a time, in list order, without condition (20_memory.md R38; 40_bit_transport.md R60). -/
def runMicro : List MicroOp → State → State
  | [], s => s
  | m :: ms, s => runMicro ms (envStep m (microStep (nextDraw s) m s))

/-! ### Acceptance, completion, errors -/

/-- Acceptance of a legal word (30_encoding.md R57; 10_state.md R16, R17, R18). -/
def accept (o : Op) (arg : Byte) (s : State) : State :=
  { s with opr := .busy o, argr := arg, ustep := 0#6, dly := 0, sample := 0#1, rspValid := false }

/-- `RSP` is written as a whole, the response event is recorded, `rsp_valid` pulses (10_state.md R15; 30_encoding.md R58). -/
def respond (e : Event) (r : Rsp) (s : State) : State :=
  { s with rsp := r, rspValid := true, tr := s.tr ++ [e] }

/-- The sequencer returns to idle (30_encoding.md R58: `OPR <- IDLE`, `USTEP <- 0`; log entry 5 for `sample`). -/
def retire (s : State) : State := { s with opr := .idle, ustep := 0#6, dly := 0, sample := 0#1 }

/-- TAKING AN ERROR (00_scope.md R9; 60_exceptions.md R115): the response register is written, and the sequencer is idle; nothing
is saved and control goes nowhere. A NACK ends its SENDBYTE as success does, with another `RSP`; an illegal word never left
`IDLE` and touches nothing else (30_encoding.md R52). -/
def raise (e : Err) (s : State) : State :=
  match e with
  | .nack => respond (errEvent .nack) (errRsp .nack) (retire s)
  | .illegal => respond (errEvent .illegal) (errRsp .illegal) s

/-- Completion of an operation (30_encoding.md R50, R58): the error it raises, or its ordinary response. -/
def complete (o : Op) (s : State) : State :=
  match errorOf o s.sample with
  | some e => raise e s
  | none => respond (.rsp o (responseOf o s.sample)) (responseOf o s.sample) (retire s)

/-- `rsp_valid` is high for exactly one cycle (30_encoding.md R58). -/
def pulseOver (s : State) : State := { s with rspValid := false }

/-- An idle block with no command presented does nothing and holds its pins (60_exceptions.md R127; log entry 18). -/
def idleHold (s : State) : State := pulseOver s

/-! ### Preconditions and the life of a command -/

/-- The precondition of SENDBIT, READBIT, RELEASE and SENDBYTE: bus Claimed, clock low (40_bit_transport.md R63, R65, R68;
41_byte_framer.md R80; 70_reset_and_hazards.md R137). `none` when it holds. -/
def needsClaimed (o : Op) (s : State) : Option Refusal :=
  if Claimed s then
    if s.sclOut = 0#1 then none else some (.clockNotLow o)
  else some (.busNotClaimed o)

/-- The precondition of CLAIM: bus Released, both latches 1 (40_bit_transport.md R61). `none` when it holds. -/
def needsReleased (s : State) : Option Refusal :=
  if Released s then
    if s.sdaOut = 1#1 ∧ s.sclOut = 1#1 then none else some .latchNotHigh
  else some .busNotReleased

/-- What a broken precondition is refused with (40_bit_transport.md R72; log entry 4). `none` when the operation may run. -/
def precondition (o : Op) (s : State) : Option Refusal :=
  match o with
  | .claim => needsReleased s
  | .sendBit => needsClaimed .sendBit s
  | .readBit => needsClaimed .readBit s
  | .release => needsClaimed .release s
  | .sendByte => needsClaimed .sendByte s

/-- A command from acceptance to completion: `arg` is latched, the list runs, the response is written. A command presented
while an operation is in flight is not accepted and has no effect (30_encoding.md R57; log entry 9). -/
def perform (o : Op) (arg : Byte) (ms : List MicroOp) (s : State) : Host.Outcome State Fault Refusal :=
  match s.opr with
  | .busy _ => .next s
  | .idle =>
    match precondition o s with
    | some r => .refused r
    | none => .next (complete o (runMicro ms (accept o arg s)))

/-- The host presents a word: it is the next one on the `cmd` port (30_encoding.md R57; log entry 3). -/
def present (w : CmdWord) (s : State) : State := { s with cmds := w :: s.cmds }

/-- The word on the `cmd` port is taken (20_memory.md R41). -/
def takeCmd (s : State) : State := { s with cmds := s.cmds.tail }

/-- Reset: all state takes its reset value, whatever else was happening (70_reset_and_hazards.md R130); the host's words and
the environment's answers are not the block's (log entry 11). -/
def applyReset (s : State) : State :=
  { State.reset with cmds := s.cmds, draws := s.draws, drawIx := s.drawIx }

end Sys2Proof.Machine
end

