-- ==== Sys2Proof/Machine/BitTransport.lean ====
section
/-! DEFINITION. The bit-level transport: CLAIM, SENDBIT, READBIT, RELEASE (40_bit_transport.md). A list's positions are the
values of `USTEP`. -/

namespace Sys2Proof.Machine

/-- CLAIM's five steps (40_bit_transport.md R61). -/
def claimOps : List MicroOp :=
  [.cfgOut, .set .sda 0#1, .delay .unit, .set .scl 0#1, .delay .unit]

/-- SENDBIT's four steps (40_bit_transport.md R63). -/
def sendBitOps (level : Bit) : List MicroOp :=
  [.set .sda level, .set .scl 1#1, .delay .unit, .set .scl 0#1]

/-- READBIT's seven steps (40_bit_transport.md R65). -/
def readBitOps : List MicroOp :=
  [.dir .sda .inp, .set .scl 1#1, .delay .half, .get, .delay .half, .set .scl 0#1, .dir .sda .out]

/-- RELEASE's five steps: the clock is let go before the data (40_bit_transport.md R68; 70_reset_and_hazards.md R140). -/
def releaseOps : List MicroOp :=
  [.set .scl 1#1, .dir .scl .inp, .delay .unit, .set .sda 1#1, .dir .sda .inp]

/-- CLAIM (40_bit_transport.md R61). -/
def execClaim (s : State) : Host.Outcome State Fault Refusal :=
  perform .claim (argOf .claim) claimOps s

/-- SENDBIT: the level is bit 0 of the latched operand (40_bit_transport.md R63; 10_state.md R16). -/
def execSendBit (level : Bit) (s : State) : Host.Outcome State Fault Refusal :=
  perform .sendBit (argOf (.sendBit level)) (sendBitOps (levelOf (argOf (.sendBit level)))) s

/-- READBIT (40_bit_transport.md R65). -/
def execReadBit (s : State) : Host.Outcome State Fault Refusal :=
  perform .readBit (argOf .readBit) readBitOps s

/-- RELEASE (40_bit_transport.md R68). -/
def execRelease (s : State) : Host.Outcome State Fault Refusal :=
  perform .release (argOf .release) releaseOps s

end Sys2Proof.Machine
end

