-- ==== Sys2Proof/Machine/ByteFramer.lean ====
section
/-! DEFINITION. The byte framer: SENDBYTE (41_byte_framer.md R80). -/

namespace Sys2Proof.Machine

/-- SENDBYTE's 39 steps: for bit 7 down to bit 0 the steps of SENDBIT, then the steps of READBIT (41_byte_framer.md R80). -/
def sendByteOps (byte : Byte) : List MicroOp :=
  (bitsOf byte).flatMap sendBitOps ++ readBitOps

/-- SENDBYTE (41_byte_framer.md R80). -/
def execSendByte (byte : Byte) (s : State) : Host.Outcome State Fault Refusal :=
  perform .sendByte (argOf (.sendByte byte)) (sendByteOps (argOf (.sendByte byte))) s

end Sys2Proof.Machine
end

