-- ==== Sys2Proof/Machine/Sequencer.lean ====
section
/-! DEFINITION. The sequencer between commands: which list `OPR` and `ARGR` stand for (10_state.md R16 to R18), finishing the
operation in flight, and what the block does with the word on its port. -/

namespace Sys2Proof.Machine

/-- The numbered list of an operation, its operand taken from `ARGR` (10_state.md R16, R18). -/
def microOps (o : Op) (argr : Byte) : List MicroOp :=
  match o with
  | .claim => claimOps
  | .sendBit => sendBitOps (levelOf argr)
  | .readBit => readBitOps
  | .release => releaseOps
  | .sendByte => sendByteOps argr

/-- The micro-operations of the operation in flight that have still to run (10_state.md R18). -/
def remaining (o : Op) (s : State) : List MicroOp := (microOps o s.argr).drop s.ustep.toNat

/-- The operation in flight runs to its completion: nothing cancels it and nothing waits
(40_bit_transport.md R60; 70_reset_and_hazards.md R145; log entry 14). -/
def finish (o : Op) (s : State) : State := complete o (runMicro (remaining o s) s)

/-- An idle block accepts an illegal word (30_encoding.md R52). -/
def acceptIllegal (s : State) : State := raise .illegal s

end Sys2Proof.Machine
end

