-- ==== Sys2Proof/Machine/Dispatch.lean ====
section
/-! DEFINITION. One arm per instruction: its meaning. -/

namespace Sys2Proof.Machine

/-- The effect of an instruction on an idle block, from acceptance to completion. -/
def exec (i : Instr) (s : State) : Host.Outcome State Fault Refusal :=
  match i with
  | .claim => Sys2Proof.Machine.execClaim s
  | .sendBit level => Sys2Proof.Machine.execSendBit level s
  | .readBit => Sys2Proof.Machine.execReadBit s
  | .release => Sys2Proof.Machine.execRelease s
  | .sendByte byte => Sys2Proof.Machine.execSendByte byte s

end Sys2Proof.Machine
end

