-- ==== Sys2Proof/Machine/Step.lean ====
section
/-! DEFINITION. One step: an idle block takes the word the host presents and answers it; a busy block finishes the operation
in flight (70_reset_and_hazards.md R151, R154; log entry 1). -/

namespace Sys2Proof.Machine

/-- One step of the machine. A legal word runs its instruction; an illegal one is answered as R52 says; with no word presented
the idle block holds (log entry 18). -/
def step (s : State) : Host.Outcome State Fault Refusal :=
  match s.opr with
  | .busy o => .next (finish o s)
  | .idle =>
    match s.cmds with
    | [] => .next (idleHold s)
    | w :: _ =>
      match decode w with
      | .ok i => exec i (takeCmd s)
      | .error _ => .next (acceptIllegal (takeCmd s))

/-- The word `w` of spec/opcode_table.json presented on the command port of an idle block, so that the next step takes it
(20_memory.md R41; log entries 3 and 17). -/
def State.withFetchWord (s : State) (nbits w : Nat) : State :=
  present (tableWord nbits w) { s with opr := .idle }

end Sys2Proof.Machine
end

