-- ==== Sys2Proof/Machine/HostLayer.lean ====
section
/-! DEFINITION. The host command layer: the documented driver as a host program over the command port
(42_host_command_layer.md). It is no part of the block (00_scope.md R4; 42_host_command_layer.md R90; log entry 15); `step` does
not use it. -/

namespace Sys2Proof.Machine

/-! ### Constants (42_host_command_layer.md R102) -/

def slaveAddressByte : Byte := 0x78#8
def controlCommand : Byte := 0x80#8
def controlData : Byte := 0xC0#8
def displayOnByte : Byte := 0xAF#8
def displayOffByte : Byte := 0xAE#8
def rwmBegin : Byte := 0xE0#8
def rwmEnd : Byte := 0xEE#8
def pageCount : Nat := 8
def columnCount : Nat := 132

/-- `pageCmd(p) = 0xB0 + p` for a page 0 to 7, a range error (`none`) otherwise (42_host_command_layer.md R96). -/
def pageCmd (page : Nat) : Option Byte :=
  if page ≤ 7 then some (0xB0#8 + BitVec.ofNat 8 page) else none

/-- The lower and upper column address commands of a column 0 to 131, a range error (`none`) otherwise
(42_host_command_layer.md R96; the split is from general knowledge, 93_implementation_defined.md G3). -/
def columnCmds (column : Nat) : Option (Byte × Byte) :=
  if column ≤ 131 then some (0x00#8 + BitVec.ofNat 8 (column % 16), 0x10#8 + BitVec.ofNat 8 (column / 16)) else none

/-! ### Results and short-circuit (42_host_command_layer.md R91) -/

/-- `OK` or `NACK` (42_host_command_layer.md R91). -/
inductive HostResult where
  | ok
  | nack
  deriving DecidableEq, Repr

/-- A host operation's outcome: the state it leaves with its result, or a stop of the machine. -/
abbrev HostOutcome := Host.Outcome (State × HostResult) Fault Refusal

/-- The block is idle again: the host waits for the operation in flight, if there is one (30_encoding.md R57). -/
def waitReady (s : State) : State :=
  match s.opr with
  | .idle => s
  | .busy o => finish o s

/-- The host issues one command, holding it until it is accepted, and waits for its response (30_encoding.md R57;
42_host_command_layer.md R90). -/
def issue (i : Instr) (s : State) : Host.Outcome State Fault Refusal := step (present (encode i) (waitReady s))

/-- `NACK` if `RSP.NACK == 1`, else `OK` (42_host_command_layer.md R91). -/
def resultOf (s : State) : HostResult := if nackOf s.rsp = 1#1 then .nack else .ok

/-- `hostSendByte(b)` (42_host_command_layer.md R91). -/
def hostSendByte (b : Byte) (s : State) : HostOutcome :=
  match issue (.sendByte b) s with
  | .next t => .next (t, resultOf t)
  | .fault f => .fault f
  | .refused r => .refused r

/-- `A then B`: `B` is performed only if `A` returned `OK` (42_host_command_layer.md R91; 70_reset_and_hazards.md R146). -/
def hostThen (a : HostOutcome) (b : State → HostOutcome) : HostOutcome :=
  match a with
  | .next (t, .ok) => b t
  | .next (t, .nack) => .next (t, .nack)
  | .fault f => .fault f
  | .refused r => .refused r

/-- Bytes sent one after the other, short-circuiting on the first that is not acknowledged. -/
def hostSendBytes : List Byte → State → HostOutcome
  | [], s => .next (s, .ok)
  | b :: bs, s => hostThen (hostSendByte b s) (hostSendBytes bs)

/-! ### Single commands and data -/

/-- addressSlave (42_host_command_layer.md R92). -/
def addressSlave (s : State) : HostOutcome := hostSendByte slaveAddressByte s

/-- `sendCommand(cmd)` (42_host_command_layer.md R93). -/
def sendCommand (cmd : Byte) (s : State) : HostOutcome :=
  hostThen (hostSendByte controlCommand s) (hostSendByte cmd)

/-- `sendData(data)` (42_host_command_layer.md R94). -/
def sendData (data : Byte) (s : State) : HostOutcome :=
  hostThen (hostSendByte controlData s) (hostSendByte data)

/-- `sendDoubleCommand(cmd1, cmd2)` (42_host_command_layer.md R95). -/
def sendDoubleCommand (cmd1 cmd2 : Byte) (s : State) : HostOutcome :=
  hostThen (sendCommand cmd1 s) (sendCommand cmd2)

/-! ### Multi-step operations -/

/-- `n` times `sendData(0x00)` (42_host_command_layer.md R97). -/
def sendZeros : Nat → State → HostOutcome
  | 0, s => .next (s, .ok)
  | n + 1, s => hostThen (sendData 0x00#8 s) (sendZeros n)

/-- One page of clearDisplay: page command, column commands for column 0, read-write-modify begin, 132 zero data bytes,
read-write-modify end (42_host_command_layer.md R97; the page command's place is D23). -/
def clearPage (page : Nat) (s : State) : HostOutcome :=
  hostThen (sendCommand (0xB0#8 + BitVec.ofNat 8 page) s) fun s1 =>
  hostThen (sendCommand (0x00#8 + 0#8) s1) fun s2 =>
  hostThen (sendCommand (0x10#8 + 0#8) s2) fun s3 =>
  hostThen (sendCommand rwmBegin s3) fun s4 =>
  hostThen (sendZeros columnCount s4) fun s5 =>
  sendCommand rwmEnd s5

/-- The pages of a list, one after the other. -/
def clearPages : List Nat → State → HostOutcome
  | [], s => .next (s, .ok)
  | p :: ps, s => hostThen (clearPage p s) (clearPages ps)

/-- `clearDisplay()` (42_host_command_layer.md R97). -/
def clearDisplay (s : State) : HostOutcome := clearPages (List.range pageCount) s

/-- The part of initDisplay after the claim (42_host_command_layer.md R98). -/
def initSequence (s : State) : HostOutcome :=
  hostThen (addressSlave s) fun s1 =>
  hostThen (sendDoubleCommand 0xA8#8 0x3F#8 s1) fun s2 =>
  hostThen (sendDoubleCommand 0xDA#8 0x12#8 s2) fun s3 =>
  hostThen (sendCommand displayOffByte s3) fun s4 =>
  hostThen (sendDoubleCommand 0xAD#8 0x8D#8 s4) fun s5 =>
  hostThen (sendCommand 0xA1#8 s5) fun s6 =>
  hostThen (sendCommand 0xA6#8 s6) fun s7 =>
  clearDisplay s7

/-- `initDisplay()`: claims the bus, and does not release it, on success or on failure (42_host_command_layer.md R98). -/
def initDisplay (s : State) : HostOutcome :=
  match issue .claim s with
  | .next t => initSequence t
  | .fault f => .fault f
  | .refused r => .refused r

/-- `deinitDisplay()` = RELEASE; it returns nothing (42_host_command_layer.md R100). -/
def deinitDisplay (s : State) : Host.Outcome State Fault Refusal := issue .release s

/-! ### Display power (42_host_command_layer.md R99) -/

/-- The host with its one flag, `DISPLAY_ON` (10_state.md R21; 42_host_command_layer.md R99). -/
structure HostState where
  block : State
  displayOn : Bool
  deriving DecidableEq, Repr

/-- Process start: the block reset, the flag off (42_host_command_layer.md R99, R101). -/
def HostState.start : HostState := ⟨State.reset, false⟩

/-- The display command of a new power state (42_host_command_layer.md R99). -/
def powerByte (on : Bool) : Byte := if on then displayOnByte else displayOffByte

/-- The flag after a send for the new state `new`: committed only after a confirmed success (42_host_command_layer.md R99;
conflict C2). -/
def commitPower (old new : Bool) (r : HostResult) : Bool :=
  match r with
  | .ok => new
  | .nack => old

/-- `toggleDisplay()` (42_host_command_layer.md R99). -/
def toggleDisplay (h : HostState) : Host.Outcome (HostState × HostResult) Fault Refusal :=
  match sendCommand (powerByte (!h.displayOn)) h.block with
  | .next (t, r) => .next (⟨t, commitPower h.displayOn (!h.displayOn) r⟩, r)
  | .fault f => .fault f
  | .refused r => .refused r

/-! ### Release on every path, and the entry point -/

/-- Ends a transaction with its one RELEASE, whatever its result (42_host_command_layer.md R103). -/
def releaseAfter (h : Host.Outcome (HostState × HostResult) Fault Refusal) :
    Host.Outcome (HostState × HostResult) Fault Refusal :=
  match h with
  | .next (t, r) =>
    match deinitDisplay t.block with
    | .next u => .next (⟨u, t.displayOn⟩, r)
    | .fault f => .fault f
    | .refused q => .refused q
  | .fault f => .fault f
  | .refused q => .refused q

/-- `A then B` on the host's state (42_host_command_layer.md R91). -/
def hostThenH (a : Host.Outcome (HostState × HostResult) Fault Refusal)
    (b : HostState → Host.Outcome (HostState × HostResult) Fault Refusal) :
    Host.Outcome (HostState × HostResult) Fault Refusal :=
  match a with
  | .next (t, .ok) => b t
  | .next (t, .nack) => .next (t, .nack)
  | .fault f => .fault f
  | .refused r => .refused r

/-- initDisplay on the host's state; the flag is not its concern (42_host_command_layer.md R98, R99). -/
def initDisplayH (h : HostState) : Host.Outcome (HostState × HostResult) Fault Refusal :=
  match initDisplay h.block with
  | .next (t, r) => .next (⟨t, h.displayOn⟩, r)
  | .fault f => .fault f
  | .refused r => .refused r

/-- "Init pins": the reset of the block, with the flag off as at process start (42_host_command_layer.md R99, R101;
70_reset_and_hazards.md R133). -/
def initPins (h : HostState) : HostState := ⟨applyReset h.block, false⟩

/-- The process entry point: init pins, init display, toggle on, toggle off, deinit; a failure aborts early, and the bus is
released on every path (42_host_command_layer.md R101, R103). The host's delays carry no state (log entry 15). -/
def processEntry (h : HostState) : Host.Outcome (HostState × HostResult) Fault Refusal :=
  releaseAfter (hostThenH (hostThenH (initDisplayH (initPins h)) toggleDisplay) toggleDisplay)

end Sys2Proof.Machine
end

