-- ==== Sys2Proof/Machine/Circuit.lean ====
section
/-! DEFINITION. The block as a synchronous circuit, one clock edge at a time: ports (20_memory.md R32), handshake
(30_encoding.md R57, R58), reset (70_reset_and_hazards.md R130), delay counter (10_state.md R19) and cycle counts
(70_reset_and_hazards.md R152). `T_HALF` is an argument. The command-level `step` is what a whole life of a command comes to. -/

namespace Sys2Proof.Machine

/-! ### Ports -/

/-- The inputs of the block in one cycle (20_memory.md R32). `extSda` is the level the bus environment gives an undriven data
line; the port `sda_i` is `Line(SDA)` (`sdaIn`). There is no clock-line input. -/
structure PortIn where
  rst : Bool
  cmdValid : Bool
  cmd : CmdWord
  extSda : Bit
  deriving DecidableEq, Repr

/-- The outputs of the block in one cycle (20_memory.md R32). -/
structure PortOut where
  cmdReady : Bool
  rspValid : Bool
  rsp : Rsp
  sdaOe : Bool
  sdaO : Bit
  sclOe : Bool
  sclO : Bit
  deriving DecidableEq, Repr

/-- `sda_i`, the data line as the pad sees it (20_memory.md R32, R36). -/
def sdaIn (i : PortIn) (s : State) : Bit := pinGet i.extSda s

/-- The output ports are views of the state (20_memory.md R32). -/
def ports (s : State) : PortOut where
  cmdReady := cmdReady s
  rspValid := s.rspValid
  rsp := s.rsp
  sdaOe := s.sdaDir = .out
  sdaO := s.sdaOut
  sclOe := s.sclDir = .out
  sclO := s.sclOut

/-! ### One clock edge -/

/-- What `DLY` is loaded with when the sequencer comes to a micro-operation: the length of a delay, else nothing
(10_state.md R19; log entry 7). -/
def delayLoad (p : Params) (m : Option MicroOp) : Nat :=
  match m with
  | some (.delay d) => p.cycles d
  | some .cfgOut => 0
  | some (.dir _ _) => 0
  | some (.set _ _) => 0
  | some .get => 0
  | none => 0

/-- `DLY` is loaded for the micro-operation `USTEP` points to (10_state.md R19). -/
def loadDelay (p : Params) (ms : List MicroOp) (s : State) : State :=
  { s with dly := delayLoad p ms[s.ustep.toNat]? }

/-- One cycle of a delay passes; no other state changes while it counts (10_state.md R19). -/
def countDown (s : State) : State := { s with dly := s.dly - 1 }

/-- True while a delay has more than its last cycle to run (10_state.md R19). -/
def stillCounting (m : MicroOp) (s : State) : Bool :=
  match m with
  | .delay _ => decide (1 < s.dly)
  | .cfgOut => false
  | .dir _ _ => false
  | .set _ _ => false
  | .get => false

/-- After a micro-operation: the operation completes in the same edge if it was the last, else the next one starts
(10_state.md R18; 30_encoding.md R58). -/
def afterMicro (p : Params) (o : Op) (ms : List MicroOp) (s : State) : State :=
  if ms.length ≤ s.ustep.toNat then complete o s else loadDelay p ms s

/-- A clock edge while an operation is in flight (70_reset_and_hazards.md R152). -/
def microEdge (p : Params) (ext : Bit) (o : Op) (s : State) : State :=
  match (microOps o s.argr)[s.ustep.toNat]? with
  | none => complete o s
  | some m =>
    if stillCounting m s then countDown s
    else afterMicro p o (microOps o s.argr) (microStep ext m s)

/-- A clock edge at which a legal word is accepted (30_encoding.md R57). A broken precondition is refused as in `perform`
(40_bit_transport.md R72; log entry 4). -/
def acceptEdge (p : Params) (i : Instr) (s : State) : Host.Outcome State Fault Refusal :=
  match precondition i.op s with
  | some r => .refused r
  | none => .next (loadDelay p (microOps i.op (argOf i)) (accept i.op (argOf i) s))

/-- A clock edge at which a word is accepted, legal or not (30_encoding.md R52, R57). -/
def commandEdge (p : Params) (w : CmdWord) (s : State) : Host.Outcome State Fault Refusal :=
  match decode w with
  | .ok i => acceptEdge p i s
  | .error _ => .next (acceptIllegal s)

/-- One rising clock edge. Reset overrides everything (70_reset_and_hazards.md R130; log entry 11); a word presented while
`cmd_ready == 0` has no effect (30_encoding.md R57). -/
def clockEdge (p : Params) (i : PortIn) (s : State) : Host.Outcome State Fault Refusal :=
  if i.rst then .next (applyReset s)
  else
    match s.opr with
    | .busy o => .next (microEdge p i.extSda o (pulseOver s))
    | .idle => if i.cmdValid then commandEdge p i.cmd s else .next (idleHold s)

/-- Clock edges one after the other, one for each cycle's inputs, stopping where one stops. -/
def edges (p : Params) : List PortIn → State → Host.Outcome State Fault Refusal
  | [], s => .next s
  | i :: is, s =>
    match clockEdge p i s with
    | .next t => edges p is t
    | .fault f => .fault f
    | .refused r => .refused r

/-! ### The circuit with its host and its bus environment -/

/-- The inputs the other two agents of a run give: the host holds its next word on the port until it is accepted
(30_encoding.md R57), the environment answers a sample (20_memory.md R36), and a run has no reset inside
(70_reset_and_hazards.md R132). -/
def closedInputs (s : State) : PortIn where
  rst := false
  cmdValid := !s.cmds.isEmpty
  cmd := s.cmds.headD 0#11
  extSda := nextDraw s

/-- The host's word is taken when the block is ready; an answer of the environment is used up when the block samples. -/
def agentsMove (s : State) : State :=
  match s.opr with
  | .idle => takeCmd s
  | .busy o => if (microOps o s.argr)[s.ustep.toNat]? = some .get then takeDraw s else s

/-- One clock cycle of the whole system. -/
def tick (p : Params) (s : State) : Host.Outcome State Fault Refusal :=
  clockEdge p (closedInputs s) (agentsMove s)

/-- `k` clock cycles of the whole system, stopping where one stops. -/
def ticks (p : Params) : Nat → State → Host.Outcome State Fault Refusal
  | 0, s => .next s
  | k + 1, s =>
    match tick p s with
    | .next t => ticks p k t
    | .fault f => .fault f
    | .refused r => .refused r

/-! ### Durations -/

/-- The cycles a micro-operation takes (70_reset_and_hazards.md R152). -/
def microCycles (p : Params) (m : MicroOp) : Nat :=
  match m with
  | .delay d => p.cycles d
  | .cfgOut => 1
  | .dir _ _ => 1
  | .set _ _ => 1
  | .get => 1

/-- The cycles from acceptance to the completing edge, R152's `N`, summed over the list. -/
def cyclesOf (p : Params) (i : Instr) : Nat :=
  ((microOps i.op (argOf i)).map (microCycles p)).sum

/-- The half timing units a micro-operation takes, counting only the stated delays (70_reset_and_hazards.md R153). -/
def halfUnits (m : MicroOp) : Nat :=
  match m with
  | .delay .unit => 2
  | .delay .half => 1
  | .cfgOut => 0
  | .dir _ _ => 0
  | .set _ _ => 0
  | .get => 0

/-- The length of an operation in half timing units (70_reset_and_hazards.md R153). -/
def halfUnitsOf (i : Instr) : Nat := ((microOps i.op (argOf i)).map halfUnits).sum

end Sys2Proof.Machine
end

