-- ==== Sys2Proof/Machine/Lines.lean ====
section
/-! DEFINITION. What appears on the two lines (20_memory.md R31, R37): derived remarks, "used by the wire-level remarks and the
test vectors, never by the operation rules themselves". `Line` takes the pad's level when the pad drives (D28, log entry 12). -/

namespace Sys2Proof.Machine

/-- The levels the bus environment gives the undriven lines, `EXT_SDA` and `EXT_SCL` (20_memory.md R31). -/
structure Env where
  sda : Bit
  scl : Bit
  deriving DecidableEq, Repr

/-- External pull-ups and nobody pulling low (20_memory.md R31; 60_exceptions.md R123). -/
def pulledUp : Env := ⟨1#1, 1#1⟩

/-- The environment's level for a pin. -/
def Env.level (e : Env) (p : Pin) : Bit :=
  match p with
  | .sda => e.sda
  | .scl => e.scl

/-- `Line(p)` (20_memory.md R31). -/
def line (e : Env) (p : Pin) (s : State) : Bit := lineLevel (e.level p) p s

/-- The pad drives a 1 while something pulls the line low: contention, which no source resolves
(70_reset_and_hazards.md R142, R150; 93_implementation_defined.md U10). -/
def contends (e : Env) (p : Pin) (s : State) : Bool :=
  dirOf p s = .out ∧ latchOf p s = 1#1 ∧ e.level p = 0#1

/-- The levels of the data line and the clock line in a state. -/
def levels (e : Env) (s : State) : Bit × Bit := (line e .sda s, line e .scl s)

/-! ### Line events (20_memory.md R37)

An event is a move of the LINES, from one moment's levels (data, clock) to the next moment's. A line moves when the block moves it
and when the environment's level of an undriven line changes; R37 makes no difference. -/

/-- START: the data line goes 1 to 0 while the clock line is 1 (20_memory.md R37). -/
def isStart (a b : Bit × Bit) : Bool := a.1 = 1#1 ∧ b.1 = 0#1 ∧ a.2 = 1#1 ∧ b.2 = 1#1

/-- STOP: the data line goes 0 to 1 while the clock line is 1 (20_memory.md R37; the direction is from general knowledge,
93_implementation_defined.md G1). -/
def isStop (a b : Bit × Bit) : Bool := a.1 = 0#1 ∧ b.1 = 1#1 ∧ a.2 = 1#1 ∧ b.2 = 1#1

/-- The clock line rises, which begins a clock pulse (20_memory.md R37). -/
def isRise (a b : Bit × Bit) : Bool := a.2 = 0#1 ∧ b.2 = 1#1

/-- The clock line falls, which ends a clock pulse (20_memory.md R37). -/
def isFall (a b : Bit × Bit) : Bool := a.2 = 1#1 ∧ b.2 = 0#1

/-- How often a line event happens from one moment on. -/
def countFrom (r : Bit × Bit → Bit × Bit → Bool) : Bit × Bit → List (Bit × Bit) → Nat
  | _, [] => 0
  | a, b :: ls => (if r a b then 1 else 0) + countFrom r b ls

/-- How often a line event happens in a sequence of moments. -/
def countEvents (r : Bit × Bit → Bit × Bit → Bool) : List (Bit × Bit) → Nat
  | [] => 0
  | a :: ls => countFrom r a ls

/-- The clock pulses from one moment on, where `high` holds the data line's levels in the high phase that has begun, if one has.
A rise begins a pulse and the later fall ends it; a high phase without a fall, or without a rise, is no pulse. -/
def pulsesFrom (high : Option (List Bit)) (a : Bit × Bit) : List (Bit × Bit) → List (List Bit)
  | [] => []
  | b :: ls =>
    if isRise a b then pulsesFrom (some [b.1]) b ls
    else if isFall a b then
      match high with
      | some hs => hs :: pulsesFrom none b ls
      | none => pulsesFrom none b ls
    else
      match high with
      | some hs => pulsesFrom (some (hs ++ [b.1])) b ls
      | none => pulsesFrom none b ls

/-- The clock pulses of a sequence of moments, each as the levels the data line had from its rise up to its fall
(20_memory.md R37). -/
def pulses : List (Bit × Bit) → List (List Bit)
  | [] => []
  | a :: ls => pulsesFrom none a ls

/-- The bits a slave may take: one a pulse, at any moment of its high phase (20_memory.md R37 names no instant; log entry 23). -/
def mayTake (ps : List (List Bit)) (bits : List Bit) : Prop := List.Forall₂ (fun hs b => b ∈ hs) ps bits

/-! ### What a list of micro-operations does on the lines -/

/-- The states a list of micro-operations passes through after its first. -/
def statesAfter : List MicroOp → State → List State
  | [], _ => []
  | m :: ms, s => envStep m (microStep (nextDraw s) m s) :: statesAfter ms (envStep m (microStep (nextDraw s) m s))

/-- What the environment does while states pass: for each state the levels it goes through, in order. -/
abbrev Timeline := List (List Env)

/-- A timeline fits a list of micro-operations: some levels for the state before the first and for the state after each. -/
def fits (ts : Timeline) (ms : List MicroOp) : Prop := ts.length = ms.length + 1 ∧ ∀ es ∈ ts, es ≠ []

/-- The environment's levels hold throughout. -/
def steady (e : Env) (ms : List MicroOp) : Timeline := List.replicate (ms.length + 1) [e]

/-- The moments of the two lines while states pass. -/
def seen : Timeline → List State → List (Bit × Bit)
  | es :: ts, s :: ss => es.map (fun e => levels e s) ++ seen ts ss
  | [], _ => []
  | _ :: _, [] => []

/-- The moments of the two lines while a list runs, the state before it included. -/
def onLines (ts : Timeline) (ms : List MicroOp) (s : State) : List (Bit × Bit) := seen ts (s :: statesAfter ms s)

/-- How often a line event happens while a list runs. -/
def countIn (r : Bit × Bit → Bit × Bit → Bool) (ts : Timeline) (ms : List MicroOp) (s : State) : Nat :=
  countEvents r (onLines ts ms s)

/-- The clock pulses while a list runs. -/
def pulsesIn (ts : Timeline) (ms : List MicroOp) (s : State) : List (List Bit) := pulses (onLines ts ms s)

/-- The levels of the two lines after each micro-operation of a list, where the environment's levels hold. -/
def wave (e : Env) (ms : List MicroOp) (s : State) : List (Bit × Bit) := (statesAfter ms s).map (levels e)

/-- The levels of the data line the environment goes through in `n` states from the `k`-th on. -/
def sdaDuring (ts : Timeline) (k n : Nat) : List Bit := ((ts.drop k).take n).flatten.map Env.sda

end Sys2Proof.Machine
end

