-- ==== Sys2Proof/Safety.lean ====
section
/-! DEFINITION. What counts as a safe run, in the terms the claims use: the host's protocol (70_reset_and_hazards.md R135), the
shapes of the pin state (10_state.md R14), and the invariants of the machine. -/

namespace Sys2Proof.Machine

/-! ### The protocol (70_reset_and_hazards.md R135) -/

/-- Where the host stands in the language `( CLAIM (SENDBIT | READBIT | SENDBYTE)* RELEASE )*`. -/
inductive Phase where
  /-- Outside a transaction. -/
  | released
  /-- Inside a transaction. -/
  | claimed
  deriving DecidableEq, Repr

/-- The phase after a command, where the language allows the command (70_reset_and_hazards.md R135). -/
def Phase.after (ph : Phase) (i : Instr) : Option Phase :=
  match ph, i with
  | .released, .claim => some .claimed
  | .released, .sendBit _ => none
  | .released, .readBit => none
  | .released, .release => none
  | .released, .sendByte _ => none
  | .claimed, .claim => none
  | .claimed, .sendBit _ => some .claimed
  | .claimed, .readBit => some .claimed
  | .claimed, .release => some .released
  | .claimed, .sendByte _ => some .claimed

/-- A command sequence is in the language, possibly ending inside a transaction (70_reset_and_hazards.md R135). -/
def inProtocol : Phase → List Instr → Bool
  | _, [] => true
  | ph, i :: is =>
    match ph.after i with
    | some ph' => inProtocol ph' is
    | none => false

/-- Instructions executed one after the other. -/
def execAll : List Instr → State → Host.Outcome State Fault Refusal
  | [], s => .next s
  | i :: is, s =>
    match exec i s with
    | .next t => execAll is t
    | .fault f => .fault f
    | .refused r => .refused r

/-! ### The shapes of the pin state -/

/-- The four pin bits of two states agree. -/
abbrev SamePins (s t : State) : Prop :=
  s.sdaDir = t.sdaDir ∧ s.sclDir = t.sclDir ∧ s.sdaOut = t.sdaOut ∧ s.sclOut = t.sclOut

/-- The two shapes of an idle pin state (10_state.md R14). -/
abbrev IdleShape (ph : Phase) (s : State) : Prop :=
  match ph with
  | .released => Released s ∧ s.sdaOut = 1#1 ∧ s.sclOut = 1#1
  | .claimed => Claimed s ∧ s.sclOut = 0#1

/-- The pin state in the middle of an operation: the micro-operations before `USTEP` have run from a state that met the
operation's precondition (10_state.md R14, R18; 40_bit_transport.md R60). -/
def MidShape (o : Op) (s : State) : Prop :=
  ∃ s0 : State, precondition o s0 = none ∧
    SamePins s (runMicro ((microOps o s.argr).take s.ustep.toNat) s0)

/-- R14 as an invariant of the machine: idle in one of the two shapes, or busy on the way from one. -/
def PinInv (s : State) : Prop :=
  match s.opr with
  | .idle => IdleShape .released s ∨ IdleShape .claimed s
  | .busy o => MidShape o s

/-- The values of `RSP` that R50 produces: the others "are never produced" (30_encoding.md R50). -/
abbrev RspLegal (s : State) : Prop :=
  s.rsp = 0b000#3 ∨ s.rsp = 0b001#3 ∨ s.rsp = 0b011#3 ∨ s.rsp = 0b100#3

/-- The sequencer's own consistency: `USTEP` is 0 while idle and inside the operation's list while busy, so it never exceeds 38
(10_state.md R18), and `DLY` is 0 while idle and, while busy, between 1 and the length of the delay `USTEP` points to, or 0
where it points to no delay (R19). -/
def SeqInv (p : Params) (s : State) : Prop :=
  match s.opr with
  | .idle => s.ustep = 0#6 ∧ s.dly = 0
  | .busy o =>
    s.ustep.toNat < (microOps o s.argr).length ∧
    s.dly ≤ delayLoad p (microOps o s.argr)[s.ustep.toNat]? ∧
    (0 < delayLoad p (microOps o s.argr)[s.ustep.toNat]? → 0 < s.dly)

/-! ### Reading a trace -/

/-- The event of a micro-operation of an operation whose sample is `v` (00_scope.md R7). -/
def eventOf (v : Bit) : MicroOp → Event
  | .cfgOut => .cfgOut
  | .dir p d => .dir p d
  | .set p b => .set p b
  | .get => .get v
  | .delay d => .dly d

/-- The values a trace puts on the data latch, in order (41_byte_framer.md R82). -/
def dataSets : List Event → List Bit
  | [] => []
  | .set .sda v :: es => v :: dataSets es
  | .set .scl _ :: es => dataSets es
  | .cfgOut :: es => dataSets es
  | .dir _ _ :: es => dataSets es
  | .get _ :: es => dataSets es
  | .dly _ :: es => dataSets es
  | .rsp _ _ :: es => dataSets es
  | .rspIllegal _ :: es => dataSets es

/-- True for a sample (00_scope.md R7). -/
def isGet : Event → Bool
  | .get _ => true
  | .cfgOut => false
  | .dir _ _ => false
  | .set _ _ => false
  | .dly _ => false
  | .rsp _ _ => false
  | .rspIllegal _ => false

/-- True for a response event (00_scope.md R8). -/
def isRsp : Event → Bool
  | .rsp _ _ => true
  | .rspIllegal _ => true
  | .cfgOut => false
  | .dir _ _ => false
  | .set _ _ => false
  | .get _ => false
  | .dly _ => false

/-- A trace without its response events, as R85 compares traces (41_byte_framer.md R85). -/
def pinEvents (es : List Event) : List Event := es.filter (fun e => !isRsp e)

end Sys2Proof.Machine
end

