-- ==== Sys2Proof/Certificates/Slice0/Obligations.lean ====
section
/-! DEFINITION. The statements for the provers. Each docstring names the rule of spec/ it states, or the sections it rests on. -/

open Sys2Proof Sys2Proof.Machine

/-! ### Encoding -/

/-- 30_encoding.md R51: the decoder accepts exactly the legal words; there are 261 of them and 1787 others, in the three classes
R51 counts. -/
def Obligations.DecoderAcceptsExactlyLegalWords : Prop :=
  (∀ w : CmdWord, (∃ i, decode w = .ok i) ↔
    (((opField w = 0b001#3 ∨ opField w = 0b011#3 ∨ opField w = 0b100#3) ∧ argField w = 0x00#8) ∨
     (opField w = 0b010#3 ∧ (argField w).extractLsb' 1 7 = 0#7) ∨ opField w = 0b101#3)) ∧
  (∀ w : CmdWord, (∃ i, decode w = .ok i) ↔ legalWord w = true) ∧
  (∀ w : CmdWord, legalWord w = false →
    ((opField w = 0b000#3 ∨ opField w = 0b110#3 ∨ opField w = 0b111#3) ∨
     ((opField w = 0b001#3 ∨ opField w = 0b011#3 ∨ opField w = 0b100#3) ∧ argField w ≠ 0x00#8) ∨
     (opField w = 0b010#3 ∧ (argField w).extractLsb' 1 7 ≠ 0#7))) ∧
  (List.range 2048).countP (fun n => legalWord (BitVec.ofNat 11 n)) = 261 ∧
  (List.range 2048).countP (fun n => !legalWord (BitVec.ofNat 11 n)) = 1787 ∧
  (List.range 2048).countP (fun n => opField (BitVec.ofNat 11 n) ∈ [0b000#3, 0b110#3, 0b111#3]) = 768 ∧
  (List.range 2048).countP (fun n => opField (BitVec.ofNat 11 n) ∈ [0b001#3, 0b011#3, 0b100#3] ∧
    argField (BitVec.ofNat 11 n) ≠ 0x00#8) = 765 ∧
  (List.range 2048).countP (fun n => opField (BitVec.ofNat 11 n) = 0b010#3 ∧
    (argField (BitVec.ofNat 11 n)).extractLsb' 1 7 ≠ 0#7) = 254

/-- 30_encoding.md R46: `cmd & mask == match` selects the row; the rows are disjoint; the other codes are reserved. -/
def Obligations.OpcodeRowsSelectTheOperation : Prop :=
  (∀ r ∈ opcodeRows, ∀ w : CmdWord, rowMatches r w = true ↔ ∃ i, decode w = .ok i ∧ i.op = r.op) ∧
  opcodeRows.Pairwise (fun r q => ∀ w : CmdWord, ¬(rowMatches r w = true ∧ rowMatches q w = true)) ∧
  (∀ w : CmdWord, decode w = .error .reservedOp ↔
    opField w = 0b000#3 ∨ opField w = 0b110#3 ∨ opField w = 0b111#3)

/-- 30_encoding.md R45 to R47, R54: every instruction survives encoding and decoding, with every operand at every value, and a
word that decodes is the encoding of what it decodes to. -/
def Obligations.DecodeAndEncodeAgree : Prop :=
  (∀ i : Instr, decode (encode i) = .ok i) ∧
  (∀ (w : CmdWord) (i : Instr), decode w = .ok i → encode i = w)

/-- 95_test_vectors.md section 2.1: a few words of the table decode to what they stand for. -/
def Obligations.SpecWordsDecode : Prop :=
  decode 0b00100000000#11 = .ok .claim ∧ decode 0b01000000000#11 = .ok (.sendBit 0#1) ∧
  decode 0b01000000001#11 = .ok (.sendBit 1#1) ∧ decode 0b01100000000#11 = .ok .readBit ∧
  decode 0b10000000000#11 = .ok .release ∧ decode 0b10101111000#11 = .ok (.sendByte 0x78#8) ∧
  decode 0b00000000000#11 = .error .reservedOp ∧ decode 0b01000000011#11 = .error .levelTooWide

/-! ### Primitives -/

/-- 00_scope.md R7: every micro-operation's effect on the state and its event; `ext` is the level the environment gives an undriven
data line. `sample` is where the model holds PinGet's `v` (log entry 5); every micro-operation advances `USTEP` (10_state.md R18), and
a delay has completed when `DLY` is 0 (R19).
That a sample goes to the field `sample` is the model's choice (log entry 5); a sample taken while the data pin is an output, which no
run takes, is log entry 22. -/
def Obligations.MicroOperationEffects : Prop :=
  ∀ (ext : Bit) (s : State),
    microStep ext .cfgOut s =
      { s with sdaDir := .out, sclDir := .out, ustep := s.ustep + 1#6, tr := s.tr ++ [.cfgOut] } ∧
    (∀ d, microStep ext (.dir .sda d) s =
      { s with sdaDir := d, ustep := s.ustep + 1#6, tr := s.tr ++ [.dir .sda d] }) ∧
    (∀ d, microStep ext (.dir .scl d) s =
      { s with sclDir := d, ustep := s.ustep + 1#6, tr := s.tr ++ [.dir .scl d] }) ∧
    (∀ v, microStep ext (.set .sda v) s =
      { s with sdaOut := v, ustep := s.ustep + 1#6, tr := s.tr ++ [.set .sda v] }) ∧
    (∀ v, microStep ext (.set .scl v) s =
      { s with sclOut := v, ustep := s.ustep + 1#6, tr := s.tr ++ [.set .scl v] }) ∧
    (s.sdaDir = .inp → microStep ext .get s =
      { s with sample := ext, ustep := s.ustep + 1#6, tr := s.tr ++ [.get ext] }) ∧
    (∀ d, microStep ext (.delay d) s = { s with dly := 0, ustep := s.ustep + 1#6, tr := s.tr ++ [.dly d] }) ∧
    ∀ p : Params, p.cycles .unit = p.tUnit ∧ p.cycles .half = p.tHalf

/-- 20_memory.md R31: the level of a line is the latch of an output and the environment's level of an input. -/
def Obligations.LineLevels : Prop :=
  ∀ (e : Env) (s : State),
    (s.sdaDir = .out → line e .sda s = s.sdaOut) ∧ (s.sdaDir = .inp → line e .sda s = e.sda) ∧
    (s.sclDir = .out → line e .scl s = s.sclOut) ∧ (s.sclDir = .inp → line e .scl s = e.scl)

/-- 10_state.md R19: at the circuit's edges a delay counts down by one, changing nothing else, and its micro-operation completes
at the edge where the count reaches 0; the micro-operation before it loads `DLY` with the delay's length.
The model's choices here: the edge that loads `DLY` (log entry 7), and that the delay's event is recorded at its completion and not
before (log entry 8). -/
def Obligations.DelayCountsDown : Prop :=
  ∀ (p : Params) (i : PortIn) (s : State) (o : Op) (d : Span), i.rst = false → s.opr = .busy o →
    ((microOps o s.argr)[s.ustep.toNat]? = some (.delay d) → 1 < s.dly →
      clockEdge p i s = .next { s with dly := s.dly - 1, rspValid := false }) ∧
    ((microOps o s.argr)[s.ustep.toNat]? = some (.delay d) → s.dly = 1 →
      ∃ t, clockEdge p i s = .next t ∧ (t.ustep = s.ustep + 1#6 ∨ t.opr = .idle) ∧
        ∃ es, t.tr = s.tr ++ .dly d :: es) ∧
    (∀ t, (microOps o s.argr)[s.ustep.toNat + 1]? = some (.delay d) → clockEdge p i s = .next t →
      t.ustep = s.ustep + 1#6 → t.dly = p.cycles d)

/-! ### Reset -/

/-- 10_state.md R23: the state after reset; the bus is Released, both lines are high, the block is ready, and the host's display
flag is off. -/
def Obligations.ResetStateIsAsStated : Prop :=
  State.reset.sdaDir = .inp ∧ State.reset.sclDir = .inp ∧ State.reset.sdaOut = 1#1 ∧ State.reset.sclOut = 1#1 ∧
  State.reset.rsp = 0b000#3 ∧ State.reset.argr = 0x00#8 ∧ State.reset.opr = .idle ∧ State.reset.ustep = 0#6 ∧
  State.reset.dly = 0 ∧ State.reset.tr = [] ∧
  Released State.reset ∧ line pulledUp .sda State.reset = 1#1 ∧ line pulledUp .scl State.reset = 1#1 ∧
  cmdReady State.reset = true ∧ HostState.start.displayOn = false

/-- 70_reset_and_hazards.md R130: at an edge with `rst` high all state takes its reset value, whatever was happening.
The model's own `sample` (log entry 5) is left open.
That reset keeps the host's words, the environment's answers and their counter is the model's choice (log entry 11). -/
def Obligations.ResetInputOverridesEverything : Prop :=
  ∀ (p : Params) (i : PortIn) (s : State), i.rst = true →
    ∃ t, clockEdge p i s = .next t ∧ t = { s with
      sdaDir := .inp, sclDir := .inp, sdaOut := 1#1, sclOut := 1#1, rsp := 0b000#3, argr := 0x00#8, opr := .idle,
      ustep := 0#6, dly := 0, rspValid := false, sample := t.sample, tr := [] }

/-! ### The five operations

In these statements the model's own field `sample` (log entry 5) is left open: `sample := t.sample`. -/

/-- 40_bit_transport.md R61: CLAIM's word, its effect on a Released bus with both latches high, the lines unmoved by its first
step, and its refusal anywhere else.
That CLAIM on a Released bus with a latch at 0 is refused is the model's reading of the precondition (log entry 4). -/
def Obligations.ClaimEffect : Prop :=
  encode .claim = 0x100#11 ∧
  ∀ s : State, s.opr = .idle →
    ((s.sdaDir = .inp ∧ s.sclDir = .inp ∧ s.sdaOut = 1#1 ∧ s.sclOut = 1#1 →
      (∃ t, exec .claim s = .next t ∧ t = { s with
        sdaDir := .out, sclDir := .out, sdaOut := 0#1, sclOut := 0#1, rsp := 0b000#3, argr := 0x00#8, ustep := 0#6,
        dly := 0, sample := t.sample, rspValid := true,
        tr := s.tr ++ [.cfgOut, .set .sda 0#1, .dly .unit, .set .scl 0#1, .dly .unit, .rsp .claim 0b000#3] }) ∧
      (∀ pin, line pulledUp pin (microStep (nextDraw s) .cfgOut s) = line pulledUp pin s)) ∧
    (¬(s.sdaDir = .inp ∧ s.sclDir = .inp ∧ s.sdaOut = 1#1 ∧ s.sclOut = 1#1) →
      ∃ r, exec .claim s = .refused r))

/-- 40_bit_transport.md R63: SENDBIT's word, its effect on a Claimed bus with the clock low, its refusal anywhere else. -/
def Obligations.SendBitEffect : Prop :=
  ∀ level : Bit, encode (.sendBit level) = 0x200#11 ||| level.setWidth 11 ∧
  ∀ s : State, s.opr = .idle →
    ((s.sdaDir = .out ∧ s.sclDir = .out ∧ s.sclOut = 0#1 →
      ∃ t, exec (.sendBit level) s = .next t ∧ t = { s with
        sdaOut := level, sclOut := 0#1, rsp := 0b000#3, argr := level.setWidth 8, ustep := 0#6, dly := 0,
        sample := t.sample, rspValid := true,
        tr := s.tr ++ [.set .sda level, .set .scl 1#1, .dly .unit, .set .scl 0#1, .rsp .sendBit 0b000#3] }) ∧
    (¬(s.sdaDir = .out ∧ s.sclDir = .out ∧ s.sclOut = 0#1) → ∃ r, exec (.sendBit level) s = .refused r))

/-- 40_bit_transport.md R65: READBIT's word, its effect on a Claimed bus with the clock low, where `v` is the environment's
answer, its refusal anywhere else. -/
def Obligations.ReadBitEffect : Prop :=
  encode .readBit = 0x300#11 ∧
  ∀ (s : State) (v : Bit), s.opr = .idle → v = nextDraw s →
    ((s.sdaDir = .out ∧ s.sclDir = .out ∧ s.sclOut = 0#1 →
      ∃ t, exec .readBit s = .next t ∧ t = { s with
        rsp := (0#1 ++ 0#1) ++ v, argr := 0x00#8, ustep := 0#6, dly := 0, sample := t.sample, rspValid := true,
        draws := s.draws.tail, drawIx := s.drawIx + 1,
        tr := s.tr ++ [.dir .sda .inp, .set .scl 1#1, .dly .half, .get v, .dly .half, .set .scl 0#1, .dir .sda .out,
          .rsp .readBit ((0#1 ++ 0#1) ++ v)] }) ∧
    (¬(s.sdaDir = .out ∧ s.sclDir = .out ∧ s.sclOut = 0#1) → ∃ r, exec .readBit s = .refused r))

/-- 40_bit_transport.md R68: RELEASE's word, its effect on a Claimed bus with the clock low, which leaves the pins as reset does,
its refusal anywhere else. -/
def Obligations.ReleaseEffect : Prop :=
  encode .release = 0x400#11 ∧
  ∀ s : State, s.opr = .idle →
    ((s.sdaDir = .out ∧ s.sclDir = .out ∧ s.sclOut = 0#1 →
      (∃ t, exec .release s = .next t ∧ t = { s with
        sdaDir := State.reset.sdaDir, sclDir := State.reset.sclDir, sdaOut := State.reset.sdaOut,
        sclOut := State.reset.sclOut, rsp := 0b000#3, argr := 0x00#8, ustep := 0#6, dly := 0,
        sample := t.sample, rspValid := true,
        tr := s.tr ++ [.set .scl 1#1, .dir .scl .inp, .dly .unit, .set .sda 1#1, .dir .sda .inp,
          .rsp .release 0b000#3] }) ∧
      State.reset.sdaDir = .inp ∧ State.reset.sclDir = .inp ∧ State.reset.sdaOut = 1#1 ∧ State.reset.sclOut = 1#1) ∧
    (¬(s.sdaDir = .out ∧ s.sclDir = .out ∧ s.sclOut = 0#1) → ∃ r, exec .release s = .refused r))

/-- 41_byte_framer.md R80: SENDBYTE's word, its effect on a Claimed bus with the clock low, where `a` is the environment's
answer (0: success, 1: NACK), its refusal anywhere else. -/
def Obligations.SendByteEffect : Prop :=
  ∀ byte : Byte, encode (.sendByte byte) = 0x500#11 ||| byte.setWidth 11 ∧
  (sendByteOps byte).length = 39 ∧ (sendByteOps byte).count (.delay .unit) = 8 ∧
  (sendByteOps byte).count (.delay .half) = 2 ∧ (sendByteOps byte).count .get = 1 ∧
  ∀ (s : State) (a : Bit), s.opr = .idle → a = nextDraw s →
    ((s.sdaDir = .out ∧ s.sclDir = .out ∧ s.sclOut = 0#1 →
      ∃ t, exec (.sendByte byte) s = .next t ∧ t = { s with
        sdaOut := byte.extractLsb' 0 1, rsp := (0#1 ++ a) ++ a, argr := byte, ustep := 0#6, dly := 0, sample := t.sample,
        rspValid := true, draws := s.draws.tail, drawIx := s.drawIx + 1,
        tr := s.tr ++
          ([7, 6, 5, 4, 3, 2, 1, 0].flatMap fun i =>
            [.set .sda (byte.extractLsb' i 1), .set .scl 1#1, .dly .unit, .set .scl 0#1]) ++
          [.dir .sda .inp, .set .scl 1#1, .dly .half, .get a, .dly .half, .set .scl 0#1, .dir .sda .out,
            .rsp .sendByte (if a = 0#1 then 0b000#3 else 0b011#3)] }) ∧
    (¬(s.sdaDir = .out ∧ s.sclDir = .out ∧ s.sclOut = 0#1) → ∃ r, exec (.sendByte byte) s = .refused r))

/-- 40_bit_transport.md R72, 70_reset_and_hazards.md R137 and R138, 93_implementation_defined.md U1 to U3: an idle block runs an
instruction exactly when its precondition holds, and refuses it by the name of what is broken.
The names of the refusals, the order in which they are looked for and `latchNotHigh` are the model's (log entry 4). -/
def Obligations.BrokenPreconditionIsRefusedByName : Prop :=
  ∀ (i : Instr) (s : State), s.opr = .idle →
    exec i s =
      (if i = .claim then
        (if ¬(s.sdaDir = .inp ∧ s.sclDir = .inp) then .refused .busNotReleased
         else if ¬(s.sdaOut = 1#1 ∧ s.sclOut = 1#1) then .refused .latchNotHigh
         else .next (finish i.op (accept i.op (argOf i) s)))
       else
        (if ¬(s.sdaDir = .out ∧ s.sclDir = .out) then .refused (.busNotClaimed i.op)
         else if s.sclOut ≠ 0#1 then .refused (.clockNotLow i.op)
         else .next (finish i.op (accept i.op (argOf i) s))))

/-- 40_bit_transport.md R73 and 41_byte_framer.md R87: the pin state before and after each operation, `d` the data latch before,
and R73's counts of micro-operations, delays and samples.
R73 and R87 are marked by the spec as its own inference from R61, R63, R65, R68 and R80. -/
def Obligations.PinStateBeforeAndAfter : Prop :=
  (∀ s : State, s.opr = .idle → s.sdaDir = .inp → s.sclDir = .inp → s.sdaOut = 1#1 → s.sclOut = 1#1 →
    ∃ t, exec .claim s = .next t ∧ t.sdaDir = .out ∧ t.sclDir = .out ∧ t.sdaOut = 0#1 ∧ t.sclOut = 0#1) ∧
  (∀ (s : State) (d : Bit), s.opr = .idle → s.sdaDir = .out → s.sclDir = .out → s.sdaOut = d → s.sclOut = 0#1 →
    (∀ level, ∃ t, exec (.sendBit level) s = .next t ∧
      t.sdaDir = .out ∧ t.sclDir = .out ∧ t.sdaOut = level ∧ t.sclOut = 0#1) ∧
    (∃ t, exec .readBit s = .next t ∧ t.sdaDir = .out ∧ t.sclDir = .out ∧ t.sdaOut = d ∧ t.sclOut = 0#1) ∧
    (∃ t, exec .release s = .next t ∧ t.sdaDir = .inp ∧ t.sclDir = .inp ∧ t.sdaOut = 1#1 ∧ t.sclOut = 1#1) ∧
    (∀ byte : Byte, ∃ t, exec (.sendByte byte) s = .next t ∧
      t.sdaDir = .out ∧ t.sclDir = .out ∧ t.sdaOut = byte.extractLsb' 0 1 ∧ t.sclOut = 0#1)) ∧
  (claimOps.length = 5 ∧ claimOps.count (.delay .unit) = 2 ∧ claimOps.count (.delay .half) = 0 ∧ claimOps.count .get = 0) ∧
  (∀ level, (sendBitOps level).length = 4 ∧ (sendBitOps level).count (.delay .unit) = 1 ∧
    (sendBitOps level).count (.delay .half) = 0 ∧ (sendBitOps level).count .get = 0) ∧
  (readBitOps.length = 7 ∧ readBitOps.count (.delay .half) = 2 ∧ readBitOps.count (.delay .unit) = 0 ∧
    readBitOps.count .get = 1) ∧
  (releaseOps.length = 5 ∧ releaseOps.count (.delay .unit) = 1 ∧ releaseOps.count (.delay .half) = 0 ∧
    releaseOps.count .get = 0)

/-- The frame of the five operations (10_state.md R11, R12, R16; 30_encoding.md R57): what a completed instruction leaves
unchanged, and what it may only add to. -/
def Obligations.InstructionFrame : Prop :=
  ∀ (i : Instr) (s t : State), s.opr = .idle → exec i s = .next t →
    t.cmds = s.cmds ∧ t.argr = argOf i ∧ (∃ es, t.tr = s.tr ++ es) ∧
    t.opr = .idle ∧ t.ustep = 0#6 ∧ t.dly = 0 ∧ t.rspValid = true ∧
    ((∀ byte, i ≠ .sendByte byte) → i ≠ .readBit → t.draws = s.draws ∧ t.drawIx = s.drawIx) ∧
    (i = .readBit → SamePins s t) ∧
    (∀ level, i = .sendBit level → t.sdaDir = s.sdaDir ∧ t.sclDir = s.sclDir ∧ t.sclOut = s.sclOut) ∧
    (∀ byte, i = .sendByte byte → t.sdaDir = s.sdaDir ∧ t.sclDir = s.sclDir ∧ t.sclOut = s.sclOut)

/-! ### Traces -/

/-- 40_bit_transport.md section 1 (95_test_vectors.md section 2.2): what an instruction adds to the trace is its list, step by
step and in order, then its response; it depends on the instruction and the environment's answer alone, not on the start
state. -/
def Obligations.EventsFollowTheList : Prop :=
  ∀ (i : Instr) (s t : State), s.opr = .idle → exec i s = .next t →
    t.tr = s.tr ++ ((microOps i.op (argOf i)).map (eventOf (nextDraw s)) ++
      [.rsp i.op (responseOf i.op (nextDraw s))])

/-- 40_bit_transport.md R66: one sample per READBIT and per SENDBYTE, between the clock's rise and its fall with only half delays
in between, none of them of length 0; no sample in the others. -/
def Obligations.OneSampleAtTheMidpoint : Prop :=
  (∀ p : Params, 1 ≤ p.tHalf) ∧
  ∀ (i : Instr) (s t : State), s.opr = .idle → exec i s = .next t →
    ∃ es, t.tr = s.tr ++ es ∧
      es.countP isGet = (if i.op = .readBit ∨ i.op = .sendByte then 1 else 0) ∧
      (i.op = .readBit ∨ i.op = .sendByte →
        ∃ pre post, es = pre ++
          [.set .scl 1#1, .dly .half, .get (nextDraw s), .dly .half, .set .scl 0#1] ++ post)

/-- 41_byte_framer.md R82, 20_memory.md R33: the eight levels SENDBYTE puts on the data latch are the byte, bit 7 first, and put
together again they are the byte. -/
def Obligations.SentBitsReconstructTheByte : Prop :=
  ∀ (byte : Byte) (s : State), s.opr = .idle → Claimed s → s.sclOut = 0#1 →
    ∃ t es, exec (.sendByte byte) s = .next t ∧ t.tr = s.tr ++ es ∧
      (∃ s0 s1 s2 s3 s4 s5 s6 s7 : Bit, dataSets es = [s0, s1, s2, s3, s4, s5, s6, s7] ∧
        s0 = byte.extractLsb' 7 1 ∧ s7 = byte.extractLsb' 0 1 ∧
        byte.toNat = s0.toNat * 128 + s1.toNat * 64 + s2.toNat * 32 + s3.toNat * 16 + s4.toNat * 8 + s5.toNat * 4 +
          s6.toNat * 2 + s7.toNat) ∧
      valueOfBits (dataSets es) = byte.toNat

/-- 41_byte_framer.md R85: SENDBYTE `b` gives, up to the `rsp` events, the trace of the nine commands it is made of, leaves the
same pin state, and its sample is the READBIT's.
R85 is marked by the spec as its own inference from R80, R63 and R65. -/
def Obligations.SendByteEqualsNineBitCommands : Prop :=
  ∀ (byte : Byte) (s : State), s.opr = .idle → Claimed s → s.sclOut = 0#1 →
    ∃ t u es fs,
      exec (.sendByte byte) s = .next t ∧
      execAll ([7, 6, 5, 4, 3, 2, 1, 0].map (fun i => .sendBit (byte.extractLsb' i 1)) ++ [.readBit]) s = .next u ∧
      t.tr = s.tr ++ es ∧ u.tr = s.tr ++ fs ∧ pinEvents es = pinEvents fs ∧ SamePins t u ∧
      bitFlagOf t.rsp = bitFlagOf u.rsp ∧ t.draws = u.draws

/-- A step only adds to the trace (20_memory.md section 6: the order of the trace is the order of the events), from every
state. -/
def Obligations.TraceOnlyGrows : Prop :=
  ∀ s t : State, step s = .next t → ∃ es, t.tr = s.tr ++ es

/-! ### Responses and errors -/

/-- 30_encoding.md R50: the value every command writes to `RSP`, a word that is illegal included. -/
def Obligations.ResponseTable : Prop :=
  (∀ (i : Instr) (s t : State), s.opr = .idle → exec i s = .next t →
    t.rsp = (match i with
      | .claim => 0b000#3
      | .sendBit _ => 0b000#3
      | .readBit => (0b00#2 ++ nextDraw s)
      | .release => 0b000#3
      | .sendByte _ => if nextDraw s = 0#1 then 0b000#3 else 0b011#3)) ∧
  (∀ (s t : State) (w : CmdWord) (ws : List CmdWord) (e : DecodeError), s.opr = .idle → s.cmds = w :: ws →
    decode w = .error e → step s = .next t → t.rsp = 0b100#3) ∧
  (∀ (o : Op) (v : Bit), responseOf o v ≠ 0b010#3 ∧ responseOf o v ≠ 0b101#3 ∧ responseOf o v ≠ 0b110#3 ∧
    responseOf o v ≠ 0b111#3 ∧ responseOf o v ≠ 0b100#3) ∧
  (∀ v : Bit, responseOf .sendByte v ≠ 0b001#3)

/-- 40_bit_transport.md R70: the four bit operations cannot fail in a way the layer detects: where they run they complete with
`ILL = 0` and `NACK = 0`; a READBIT that samples 1 is no error. -/
def Obligations.BitOperationsRaiseNothing : Prop :=
  ∀ (i : Instr) (s : State), s.opr = .idle → i.op ≠ .sendByte → precondition i.op s = none →
    ∃ t, exec i s = .next t ∧ illOf t.rsp = 0#1 ∧ nackOf t.rsp = 0#1 ∧ errorOf i.op (nextDraw s) = none

/-- 60_exceptions.md R110: a NACK is reported, at the completion and after all 39 micro-operations, exactly by a SENDBYTE whose
sample is 1. -/
def Obligations.NackExactlyWhenTheSampleIsOne : Prop :=
  ∀ (i : Instr) (s t : State), s.opr = .idle → exec i s = .next t →
    (nackOf t.rsp = 1#1 ↔ i.op = .sendByte ∧ nextDraw s = 1#1) ∧
    (nackOf t.rsp = 1#1 → t.rsp = 0b011#3 ∧ bitFlagOf t.rsp = 1#1 ∧
      ∃ es, t.tr = s.tr ++ es ++ [.rsp .sendByte 0b011#3] ∧ es.length = 39)

/-- 60_exceptions.md R115, 41_byte_framer.md R83: a NACK saves nothing and vectors nowhere: the state after it is the state after
a success, but for `RSP` and the trace; the bus is Claimed, the clock low, the data line driven with bit 0 of the byte.
That the model's own `sample` is the same after both rests on its being cleared at completion (log entry 5). -/
def Obligations.NackChangesOnlyTheResponse : Prop :=
  ∀ (byte : Byte) (s : State) (ds : List Bit), s.opr = .idle → Claimed s → s.sclOut = 0#1 →
    ∃ ack nack, exec (.sendByte byte) { s with draws := 0#1 :: ds } = .next ack ∧
      exec (.sendByte byte) { s with draws := 1#1 :: ds } = .next nack ∧
      ack.rsp = 0b000#3 ∧ nack = { ack with rsp := 0b011#3, tr := nack.tr } ∧
      nack.opr = .idle ∧ nack.ustep = 0#6 ∧ nack.rspValid = true ∧
      Claimed nack ∧ nack.sclOut = 0#1 ∧ nack.sdaOut = byte.extractLsb' 0 1

/-- 30_encoding.md R52, 60_exceptions.md R111: an illegal word runs no micro-operation; it writes `RSP`, leaves one event and pulses
`rsp_valid`, and nothing else of the block changes. At the circuit's port the same, in one edge. -/
def Obligations.IllegalWordAnswersAndDoesNothingElse : Prop :=
  ∀ (s : State) (w : CmdWord) (ws : List CmdWord) (e : DecodeError), s.opr = .idle → decode w = .error e →
    (s.cmds = w :: ws →
      step s = .next { s with
        cmds := ws, rsp := 0b100#3, rspValid := true, tr := s.tr ++ [.rspIllegal 0b100#3] }) ∧
    (∀ (p : Params) (i : PortIn), i.rst = false → i.cmdValid = true → i.cmd = w →
      clockEdge p i s = .next { s with rsp := 0b100#3, rspValid := true, tr := s.tr ++ [.rspIllegal 0b100#3] }) ∧
    illOf 0b100#3 = 1#1

/-- 60_exceptions.md R114: at most one of `ILL` and `NACK`: every step, from every state where `RSP` is one of the values R50
produces, leaves one of them. -/
def Obligations.ResponseStaysLegal : Prop :=
  (∀ s t : State, RspLegal s → step s = .next t → RspLegal t) ∧
  (∀ (p : Params) (i : PortIn) (s t : State), RspLegal s → clockEdge p i s = .next t → RspLegal t) ∧
  (∀ s : State, RspLegal s → ¬(illOf s.rsp = 1#1 ∧ nackOf s.rsp = 1#1))

/-! ### Steps -/

/-- A step of an idle block whose next word decodes is that instruction's execution, with the word taken from the port; and
`withFetchWord` makes it so.
The step's size is the model's choice (log entry 1), as are the host's list of words and `withFetchWord` (log entry 3) and the bits of a
table word that are taken (log entry 17). -/
def Obligations.StepRunsTheDecodedInstruction : Prop :=
  (∀ (s : State) (w : CmdWord) (ws : List CmdWord) (i : Instr), s.opr = .idle → s.cmds = w :: ws → decode w = .ok i →
    step s = exec i { s with cmds := ws }) ∧
  (∀ (s : State) (nbits n : Nat) (i : Instr), decodeTableWord nbits n = some i →
    step (s.withFetchWord nbits n) = exec i { s with opr := .idle })

/-- A step of a busy block completes the operation in flight (the model's choice of a step's size, log entry 14): it is idle
afterwards, has answered and taken no command, its events are those of the remaining micro-operations and the response, and its
pins are where these leave them. `v` is the bit sampled: the one held already where no sample remains (log entry 5), the
environment's answer where one remains and is taken with the data pin an input (20_memory.md R36). -/
def Obligations.StepFinishesTheOperationInFlight : Prop :=
  ∀ (s : State) (o : Op), s.opr = .busy o →
    ∃ t v, step s = .next t ∧ t.opr = .idle ∧ t.ustep = 0#6 ∧ t.dly = 0 ∧ t.rspValid = true ∧ t.argr = s.argr ∧
      t.cmds = s.cmds ∧ t.rsp = responseOf o v ∧
      t.tr = s.tr ++ ((microOps o s.argr).drop s.ustep.toNat).map (eventOf v) ++ [.rsp o (responseOf o v)] ∧
      SamePins t (runMicro (remaining o s) s) ∧
      (.get ∉ remaining o s → v = s.sample) ∧
      (.get ∈ remaining o s → s.sdaDir = .inp ∨ .dir .sda .inp ∈ remaining o s → v = nextDraw s)

/-- An idle block with no command presented holds its pins (the size of the step is the model's, log entry 18). -/
def Obligations.IdleBlockHolds : Prop :=
  ∀ s : State, s.opr = .idle → s.cmds = [] → step s = .next { s with rspValid := false }

/-- 30_encoding.md R57: a word is accepted exactly by an idle block; what acceptance latches, at the circuit's port, and that the
first micro-operation executes in the following cycle; what an illegal word leaves (`sample` and `DLY`, not named
by the rule, are left open); a word presented while `cmd_ready` is 0 is not accepted and has no effect, at the port or as an instruction.
That `exec` of an instruction on a busy block answers the unchanged state is the model's reading of R57 (log entry 9); that an idle edge
without a word lets `rsp_valid` fall and changes nothing else is R58's and 60_exceptions.md R127's. -/
def Obligations.CommandPortHandshake : Prop :=
  (∀ s : State, cmdReady s = true ↔ s.opr = .idle) ∧
  (∀ (p : Params) (i : PortIn) (s : State) (j : Instr), s.opr = .idle → i.rst = false → i.cmdValid = true →
    decode i.cmd = .ok j → precondition j.op s = none →
    (∃ t, clockEdge p i s = .next t ∧ t = { s with
      opr := .busy j.op, argr := i.cmd.extractLsb' 0 8, ustep := 0#6, rspValid := false, dly := t.dly,
      sample := t.sample }) ∧
    ∀ (i' : PortIn) (t : State), i'.rst = false → clockEdge p i s = .next t →
      ∃ m u, (microOps j.op (argOf j))[0]? = some m ∧ clockEdge p i' t = .next u ∧ u.ustep = 1#6 ∧
        u.tr = s.tr ++ [eventOf i'.extSda m]) ∧
  (∀ (p : Params) (i : PortIn) (s : State) (e : DecodeError), s.opr = .idle → i.rst = false → i.cmdValid = true →
    decode i.cmd = .error e →
    clockEdge p i s = .next { s with rsp := 0b100#3, rspValid := true, tr := s.tr ++ [.rspIllegal 0b100#3] }) ∧
  (∀ (s : State) (o : Op), s.opr = .busy o →
    (∀ i, exec i s = .next s) ∧
    (∀ (p : Params) (i : PortIn) (valid : Bool) (w : CmdWord),
      clockEdge p { i with cmdValid := valid, cmd := w } s = clockEdge p i s)) ∧
  (∀ (p : Params) (i : PortIn) (s : State), s.opr = .idle → i.rst = false → i.cmdValid = false →
    clockEdge p i s = .next { s with rspValid := false })

/-- No step of any state faults, and one is refused only where an idle block is given a legal word whose precondition is broken
(40_bit_transport.md section 1, 70_reset_and_hazards.md section 3). -/
def Obligations.OnlyBrokenPreconditionsStopTheMachine : Prop :=
  ∀ s : State,
    (∃ t, step s = .next t) ∨
    ∃ w ws i r, s.opr = .idle ∧ s.cmds = w :: ws ∧ decode w = .ok i ∧ precondition i.op s = some r ∧ step s = .refused r

/-! ### Invariants and the protocol -/

/-- 10_state.md R14 as an invariant: every step of every state that has it leaves it. -/
def Obligations.StepKeepsThePinShape : Prop :=
  ∀ s t : State, PinInv s → step s = .next t → PinInv t

/-- 10_state.md R14 as an invariant of the circuit: every clock edge, with every input, reset included, leaves it. -/
def Obligations.ClockEdgeKeepsThePinShape : Prop :=
  ∀ (p : Params) (i : PortIn) (s t : State), PinInv s → clockEdge p i s = .next t → PinInv t

/-- 10_state.md R18, R19 as an invariant of the circuit: `USTEP` stays inside the operation's list, so at most 38, and `DLY` inside
the delay's length. -/
def Obligations.SequencerStaysInsideItsList : Prop :=
  (∀ (p : Params) (i : PortIn) (s t : State), SeqInv p s → clockEdge p i s = .next t → SeqInv p t) ∧
  (∀ (p : Params) (s t : State), SeqInv p s → step s = .next t → SeqInv p t) ∧
  (∀ (p : Params) (s : State), SeqInv p s → s.ustep.toNat ≤ 38 ∧ s.dly ≤ p.tUnit)

/-- The invariants hold at reset. -/
def Obligations.InvariantsHoldAtReset : Prop :=
  PinInv State.reset ∧ RspLegal State.reset ∧ ∀ p : Params, SeqInv p State.reset

/-- 70_reset_and_hazards.md R135: from an idle state in a shape of R14, a command sequence runs exactly when it is in the language
`( CLAIM (SENDBIT | READBIT | SENDBYTE)* RELEASE )*`, and every other one is refused. -/
def Obligations.ProtocolSequencesRunAndOthersAreRefused : Prop :=
  ∀ (is : List Instr) (ph : Phase) (s : State), s.opr = .idle → IdleShape ph s →
    (inProtocol ph is = true → ∃ t, execAll is s = .next t) ∧
    (inProtocol ph is = false → ∃ r, execAll is s = .refused r)

/-! ### The circuit -/

/-- A step is a life of the circuit: from every state, with every `T_HALF`, some number of clock cycles ends where the step ends,
or is refused as it is (70_reset_and_hazards.md sections 4 and 5; log entry 1). -/
def Obligations.StepIsAWholeLifeOfTheCircuit : Prop :=
  ∀ (p : Params) (s : State), ∃ n, 0 < n ∧ ticks p n s = step s

/-- 70_reset_and_hazards.md R152: `N` of every operation, and what the cycles look like: accepted at the edge ending cycle 0, busy in
cycles 1 to `N`, `rsp_valid` and `cmd_ready` in cycle `N + 1`, where the state is the step's. -/
def Obligations.CycleCounts : Prop :=
  ∀ p : Params,
    cyclesOf p .claim = 3 + 4 * p.tHalf ∧ (∀ level, cyclesOf p (.sendBit level) = 3 + 2 * p.tHalf) ∧
    cyclesOf p .readBit = 5 + 2 * p.tHalf ∧ cyclesOf p .release = 4 + 2 * p.tHalf ∧
    (∀ byte, cyclesOf p (.sendByte byte) = 29 + 18 * p.tHalf) ∧
    (∀ (s : State) (w : CmdWord) (ws : List CmdWord) (i : Instr), s.opr = .idle → s.cmds = w :: ws →
      decode w = .ok i → precondition i.op s = none →
      (∀ k, 1 ≤ k → k ≤ cyclesOf p i →
        ∃ t, ticks p k s = .next t ∧ cmdReady t = false ∧ t.rspValid = false) ∧
      (∃ t, ticks p (cyclesOf p i + 1) s = .next t ∧ step s = .next t ∧ cmdReady t = true ∧ t.rspValid = true)) ∧
    (∀ (s : State) (w : CmdWord) (ws : List CmdWord) (e : DecodeError), s.opr = .idle → s.cmds = w :: ws →
      decode w = .error e → ∃ t, ticks p 1 s = .next t ∧ cmdReady t = true ∧ t.rspValid = true)

/-- 70_reset_and_hazards.md R153: lengths in timing units, here in half units, from the stated delays alone.
R153 is marked by the spec as its own inference from R71 and R80. -/
def Obligations.LengthsInTimingUnits : Prop :=
  halfUnitsOf .claim = 2 * 2 ∧ (∀ level, halfUnitsOf (.sendBit level) = 2 * 1) ∧ halfUnitsOf .readBit = 2 * 1 ∧
  halfUnitsOf .release = 2 * 1 ∧ (∀ byte, halfUnitsOf (.sendByte byte) = 2 * 9) ∧
  ∀ bytes : List Byte, halfUnitsOf .claim + (bytes.map (fun b => halfUnitsOf (.sendByte b))).sum + halfUnitsOf .release =
      2 * (2 + 9 * bytes.length + 1) ∧
    (bytes.length = 2211 → halfUnitsOf .claim + (bytes.map (fun b => halfUnitsOf (.sendByte b))).sum = 2 * 19901)

/-- 30_encoding.md R58: `rsp_valid` is high after an edge without reset exactly when that edge completed a command, legal or not;
the block is then ready. The edge that ends the last micro-operation completes. An accepted legal word gets its one pulse,
whatever the inputs without reset: nothing for `n - 1` edges, the pulse after the `n`-th; an accepted illegal word at once.
That the completing edge records the event also where the last micro-operation is a delay is the model's choice (log entry 8). -/
def Obligations.OnePulsePerCompletion : Prop :=
  (∀ (p : Params) (i : PortIn) (s t : State), i.rst = false → clockEdge p i s = .next t →
    (t.rspValid = true ↔ ∃ e, isRsp e = true ∧ (t.tr = s.tr ++ [e] ∨ ∃ m, t.tr = s.tr ++ [m, e])) ∧
    (t.rspValid = true → t.opr = .idle ∧ cmdReady t = true) ∧
    (∀ o, s.opr = .busy o → t.rspValid = true →
      t.ustep = 0#6 ∧ (∃ v, t.rsp = responseOf o v) ∧ ∃ es, t.tr = s.tr ++ es ++ [.rsp o t.rsp])) ∧
  (∀ (p : Params) (i : PortIn) (s : State) (o : Op) (m : MicroOp), i.rst = false → s.opr = .busy o →
    s.ustep.toNat + 1 = (microOps o s.argr).length → (microOps o s.argr)[s.ustep.toNat]? = some m →
    ((∃ d, m = .delay d) → s.dly ≤ 1) →
    ∃ t v, clockEdge p i s = .next t ∧ t.opr = .idle ∧ t.ustep = 0#6 ∧ t.rspValid = true ∧ t.rsp = responseOf o v ∧
      t.tr = s.tr ++ [eventOf v m, .rsp o (responseOf o v)]) ∧
  (∀ (p : Params) (i : PortIn) (s t : State) (j : Instr), s.opr = .idle → i.rst = false → i.cmdValid = true →
    decode i.cmd = .ok j → clockEdge p i s = .next t →
    ∃ n, 0 < n ∧ ∀ is : List PortIn, (∀ i' ∈ is, i'.rst = false) → is.length ≤ n →
      ∃ u, edges p is t = .next u ∧ (u.rspValid = true ↔ is.length = n) ∧ (cmdReady u = true ↔ is.length = n)) ∧
  (∀ (p : Params) (i : PortIn) (s : State) (e : DecodeError), s.opr = .idle → i.rst = false → i.cmdValid = true →
    decode i.cmd = .error e → ∃ t, clockEdge p i s = .next t ∧ t.rspValid = true ∧ cmdReady t = true)

/-! ### The lines -/

/-- 40_bit_transport.md R62: CLAIM under its precondition makes one START: both lines high before and after step 0, data down
under the high clock at step 1, clock down at step 3, both low at the end. Only before step 0 does it need the pull-ups: after it nothing the environment does
moves a line.
R62 is marked by the spec as its own inference from R61, R20 and R31.
Where the pad drives 1 and the environment pulls 0 the line's level is the pad's (D28, U10, log entry 12); that can be so in the
states after steps 0 to 2. -/
def Obligations.ClaimMakesOneStart : Prop :=
  ∀ s : State, IdleShape .released s →
    levels pulledUp s = (1#1, 1#1) ∧
    claimOps.zip (wave pulledUp claimOps s) =
      [(.cfgOut, (1#1, 1#1)), (.set .sda 0#1, (0#1, 1#1)), (.delay .unit, (0#1, 1#1)), (.set .scl 0#1, (0#1, 0#1)),
       (.delay .unit, (0#1, 0#1))] ∧
    ∀ ts : Timeline, fits ts claimOps → (∀ e ∈ ts.headD [], e = pulledUp) →
      countIn isStart ts claimOps s = 1 ∧ countIn isStop ts claimOps s = 0 ∧ pulsesIn ts claimOps s = []

/-- 40_bit_transport.md R64: SENDBIT under its preconditions sets the data line under the low clock, then gives one pulse with
the data stable; no START, no STOP.
R64 is marked by the spec as its own inference from R63, R31 and R37.
Where the pad drives 1 and the environment pulls 0 the line's level is the pad's (D28, U10, log entry 12).
The slave takes one bit a pulse, at any moment of its high phase (R37, log entry 23); the environment may move as it likes. -/
def Obligations.SendBitGivesOnePulse : Prop :=
  ∀ (e : Env) (level : Bit) (s : State), IdleShape .claimed s →
    (sendBitOps level).zip (wave e (sendBitOps level) s) =
      [(.set .sda level, (level, 0#1)), (.set .scl 1#1, (level, 1#1)), (.delay .unit, (level, 1#1)),
       (.set .scl 0#1, (level, 0#1))] ∧
    ∀ ts : Timeline, fits ts (sendBitOps level) →
      countIn isRise ts (sendBitOps level) s = 1 ∧ countIn isFall ts (sendBitOps level) s = 1 ∧
      (∃ hs, pulsesIn ts (sendBitOps level) s = [hs] ∧ hs ≠ [] ∧ ∀ b ∈ hs, b = level) ∧
      (∀ bits, mayTake (pulsesIn ts (sendBitOps level) s) bits ↔ bits = [level]) ∧
      countIn isStart ts (sendBitOps level) s = 0 ∧ countIn isStop ts (sendBitOps level) s = 0

/-- 40_bit_transport.md R67 and 70_reset_and_hazards.md R142: READBIT's levels, first where the environment holds its level during
the operation; at the end the data line is driven with the latch again, against a slave that still pulls low if the latch is 1.
Then whatever the environment does: one pulse with the environment's levels in its high phase, which make a START or STOP exactly
where they move (20_memory.md R37), so none where they hold.
Where the pad drives 1 and the environment pulls 0 the line's level is the pad's (D28, U10, log entry 12). -/
def Obligations.ReadBitLevels : Prop :=
  ∀ (e : Env) (s : State), IdleShape .claimed s →
    readBitOps.zip (wave e readBitOps s) =
      [(.dir .sda .inp, (e.sda, 0#1)), (.set .scl 1#1, (e.sda, 1#1)), (.delay .half, (e.sda, 1#1)), (.get, (e.sda, 1#1)),
       (.delay .half, (e.sda, 1#1)), (.set .scl 0#1, (e.sda, 0#1)), (.dir .sda .out, (s.sdaOut, 0#1))] ∧
    (contends e .sda (runMicro readBitOps s) = true ↔ s.sdaOut = 1#1 ∧ e.sda = 0#1) ∧
    ∀ ts : Timeline, fits ts readBitOps →
      countIn isRise ts readBitOps s = 1 ∧ countIn isFall ts readBitOps s = 1 ∧
      sdaDuring ts 2 4 ≠ [] ∧ pulsesIn ts readBitOps s = [sdaDuring ts 2 4] ∧
      countIn isStart ts readBitOps s = countEvents isStart ((sdaDuring ts 2 4).map fun b => (b, 1#1)) ∧
      countIn isStop ts readBitOps s = countEvents isStop ((sdaDuring ts 2 4).map fun b => (b, 1#1)) ∧
      ∀ a, (∀ b ∈ sdaDuring ts 2 4, b = a) →
        (∀ bits, mayTake (pulsesIn ts readBitOps s) bits ↔ bits = [a]) ∧
        countIn isStart ts readBitOps s = 0 ∧ countIn isStop ts readBitOps s = 0

/-- 40_bit_transport.md R69, 70_reset_and_hazards.md R143: RELEASE makes a STOP exactly when the data latch was 0; after SENDBYTE
that latch is bit 0 of the byte sent. From step 1 on, where the clock is let go, the lines need the pull-ups. The clock's rise is not
followed by a fall, so it is no pulse.
R69 is marked by the spec as its own inference from R68, R31 and R37; that a STOP is the data line's rise under a high clock is the spec's general knowledge (G1).
Where the pad drives 1 and the environment pulls 0 the line's level is the pad's (D28, U10, log entry 12); that can be so of
the data line in the states before and after step 0, and of the clock line after step 0. -/
def Obligations.ReleaseMakesAStopOnlyFromLow : Prop :=
  (∀ (byte : Byte) (s : State), s.opr = .idle → IdleShape .claimed s →
    ∃ t, exec (.sendByte byte) s = .next t ∧ IdleShape .claimed t ∧ t.sdaOut = byte.extractLsb' 0 1) ∧
  ∀ s : State, IdleShape .claimed s →
    releaseOps.zip (wave pulledUp releaseOps s) =
      [(.set .scl 1#1, (s.sdaOut, 1#1)), (.dir .scl .inp, (s.sdaOut, 1#1)), (.delay .unit, (s.sdaOut, 1#1)),
       (.set .sda 1#1, (1#1, 1#1)), (.dir .sda .inp, (1#1, 1#1))] ∧
    ∀ ts : Timeline, fits ts releaseOps → (∀ es ∈ ts.drop 2, ∀ e ∈ es, e = pulledUp) →
      countIn isStop ts releaseOps s = (if s.sdaOut = 0#1 then 1 else 0) ∧ countIn isStart ts releaseOps s = 0 ∧
      countIn isRise ts releaseOps s = 1 ∧ pulsesIn ts releaseOps s = []

/-- 41_byte_framer.md R86: SENDBYTE under its preconditions gives nine pulses; the slave takes bit 7 down to bit 0, then the
ninth pulse has the environment's level; no START or STOP; at the end the data line is driven with bit 0.
Where the pad drives 1 and the environment pulls 0 the line's level is the pad's (D28, U10, log entry 12).
The slave takes one bit a pulse, at any moment of its high phase (R37, log entry 23); the environment may move as it likes, and a
START or STOP is made only by its own moves in the ninth high phase. -/
def Obligations.SendByteOnTheWire : Prop :=
  ∀ (byte : Byte) (s : State), IdleShape .claimed s →
    (∀ e : Env, line e .sda (runMicro (sendByteOps byte) s) = byte.extractLsb' 0 1) ∧
    ∀ ts : Timeline, fits ts (sendByteOps byte) →
      countIn isRise ts (sendByteOps byte) s = 9 ∧ countIn isFall ts (sendByteOps byte) s = 9 ∧
      sdaDuring ts 34 4 ≠ [] ∧
      (∃ hss, pulsesIn ts (sendByteOps byte) s = hss ++ [sdaDuring ts 34 4] ∧
        List.Forall₂ (fun hs b => hs ≠ [] ∧ ∀ x ∈ hs, x = b) hss
          [byte.extractLsb' 7 1, byte.extractLsb' 6 1, byte.extractLsb' 5 1, byte.extractLsb' 4 1,
           byte.extractLsb' 3 1, byte.extractLsb' 2 1, byte.extractLsb' 1 1, byte.extractLsb' 0 1]) ∧
      countIn isStart ts (sendByteOps byte) s = countEvents isStart ((sdaDuring ts 34 4).map fun b => (b, 1#1)) ∧
      countIn isStop ts (sendByteOps byte) s = countEvents isStop ((sdaDuring ts 34 4).map fun b => (b, 1#1)) ∧
      ∀ a, (∀ b ∈ sdaDuring ts 34 4, b = a) →
        (∀ bits, mayTake (pulsesIn ts (sendByteOps byte) s) bits ↔
          bits = [byte.extractLsb' 7 1, byte.extractLsb' 6 1, byte.extractLsb' 5 1, byte.extractLsb' 4 1,
            byte.extractLsb' 3 1, byte.extractLsb' 2 1, byte.extractLsb' 1 1, byte.extractLsb' 0 1, a]) ∧
        countIn isStart ts (sendByteOps byte) s = 0 ∧ countIn isStop ts (sendByteOps byte) s = 0

/-! ### The host layer -/

/-- 42_host_command_layer.md R93, R94, R95: the second byte, and the second command, are sent only after an acknowledged first. -/
def Obligations.HostShortCircuits : Prop :=
  (∀ (c : Byte) (s t : State),
    (hostSendByte 0x80#8 s = .next (t, .nack) → sendCommand c s = .next (t, .nack)) ∧
    (hostSendByte 0x80#8 s = .next (t, .ok) → sendCommand c s = hostSendByte c t)) ∧
  (∀ (d : Byte) (s t : State),
    (hostSendByte 0xC0#8 s = .next (t, .nack) → sendData d s = .next (t, .nack)) ∧
    (hostSendByte 0xC0#8 s = .next (t, .ok) → sendData d s = hostSendByte d t)) ∧
  (∀ (c d : Byte) (s t : State),
    (sendCommand c s = .next (t, .nack) → sendDoubleCommand c d s = .next (t, .nack)) ∧
    (sendCommand c s = .next (t, .ok) → sendDoubleCommand c d s = sendCommand d t))

/-- 42_host_command_layer.md R96: the address command bytes, with a range error outside the controller's range and no overflow
inside it.
The column's split into two halves is marked by the spec as general knowledge (R96, G3). -/
def Obligations.AddressCommandBytes : Prop :=
  (∀ page, page ≤ 7 → ∃ b, pageCmd page = some b ∧ b.toNat = 0xB0 + page) ∧
  (∀ page, 7 < page → pageCmd page = none) ∧
  (∀ c, c ≤ 131 → ∃ lo hi, columnCmds c = some (lo, hi) ∧ lo.toNat = 0x00 + c % 16 ∧ hi.toNat = 0x10 + c / 16) ∧
  (∀ c, 131 < c → columnCmds c = none)

/-- 42_host_command_layer.md R91 with 95_test_vectors.md V56, V59: bytes sent in sequence stop at the first that is not
acknowledged, the k-th say: then k SENDBYTE commands have run and no more. -/
def Obligations.HostStopsAtTheFirstNack : Prop :=
  ∀ (bs : List Byte) (s : State) (k : Nat) (rest : List Bit), s.opr = .idle → IdleShape .claimed s →
    (k < bs.length → s.draws = List.replicate k 0#1 ++ 1#1 :: rest →
      ∃ t es, hostSendBytes bs s = .next (t, .nack) ∧ t.draws = rest ∧ t.tr = s.tr ++ es ∧
        es.length = 40 * (k + 1) ∧ t.opr = .idle ∧ IdleShape .claimed t) ∧
    (k = bs.length → s.draws = List.replicate k 0#1 ++ rest →
      ∃ t es, hostSendBytes bs s = .next (t, .ok) ∧ t.draws = rest ∧ t.tr = s.tr ++ es ∧
        es.length = 40 * k ∧ t.opr = .idle ∧ IdleShape .claimed t)

/-- 42_host_command_layer.md R97 with 95_test_vectors.md V55, V56: clearDisplay is the short-circuiting send of 2192 bytes, 1056 of
them data, eight pages of 274. -/
def Obligations.ClearDisplayIsItsByteStream : Prop :=
  ∃ stream : List Byte,
    stream = (List.range 8).flatMap (fun page =>
      [0x80#8, 0xB0#8 + BitVec.ofNat 8 page, 0x80#8, 0x00#8, 0x80#8, 0x10#8, 0x80#8, 0xE0#8] ++
      (List.replicate 132 [0xC0#8, 0x00#8]).flatten ++ [0x80#8, 0xEE#8]) ∧
    stream.length = 2192 ∧ stream.count 0xC0#8 = 1056 ∧
    ∀ s : State, clearDisplay s = hostSendBytes stream s

/-- 42_host_command_layer.md R98: after the claim initDisplay is the short-circuiting send of 19 bytes and then a clear, and it issues
no RELEASE. -/
def Obligations.InitDisplayIsItsByteStream : Prop :=
  ∀ s : State,
    initSequence s = hostThen (hostSendBytes
      [0x78#8, 0x80#8, 0xA8#8, 0x80#8, 0x3F#8, 0x80#8, 0xDA#8, 0x80#8, 0x12#8, 0x80#8, 0xAE#8, 0x80#8, 0xAD#8,
       0x80#8, 0x8D#8, 0x80#8, 0xA1#8, 0x80#8, 0xA6#8] s) clearDisplay ∧
    (∀ t, issue .claim s = .next t → initDisplay s = initSequence t)

/-- 42_host_command_layer.md R99: toggleDisplay sends the command of the NEW state and commits the flag only after a confirmed
send. -/
def Obligations.ToggleCommitsAfterSuccess : Prop :=
  ∀ (h g : HostState) (r : HostResult), toggleDisplay h = .next (g, r) →
    HostState.start.displayOn = false ∧
    sendCommand (if h.displayOn then 0xAE#8 else 0xAF#8) h.block = .next (g.block, r) ∧
    (r = .ok → g.displayOn = !h.displayOn) ∧ (r = .nack → g.displayOn = h.displayOn)

/-- 42_host_command_layer.md R101, R103: whatever the bus answers, the entry sequence of the documented host runs to its end and
leaves the bus Released.
The driver beside the machine is the model's choice (log entry 15). -/
def Obligations.ProcessEntryAlwaysReleases : Prop :=
  ∀ h : HostState, ∃ g r, processEntry h = .next (g, r) ∧ g.block.opr = .idle ∧ IdleShape .released g.block

/-! ### The environment on the lines -/

/-- 20_memory.md R31, R37 (marked by the spec as derived): the environment's moves are moves of a line exactly where the block does
not drive it.
Where the pad drives 1 and the environment pulls 0 the line's level is the pad's (D28, U10, log entry 12). -/
def Obligations.EnvironmentMovesUndrivenLines : Prop :=
  ∀ (es : List Env) (s : State),
    (Released s → seen [es] [s] = es.map fun e => (e.sda, e.scl)) ∧
    (s.sdaDir = .inp → s.sclDir = .out → seen [es] [s] = es.map fun e => (e.sda, s.sclOut)) ∧
    (s.sdaDir = .out → s.sclDir = .inp → seen [es] [s] = es.map fun e => (s.sdaOut, e.scl)) ∧
    (Claimed s → seen [es] [s] = es.map fun _ => (s.sdaOut, s.sclOut)) ∧
    (Released s → ∀ c : Bit, es = [⟨1#1, 1#1⟩, ⟨0#1, 1#1⟩, ⟨0#1, 0#1⟩, ⟨c, 1#1⟩, ⟨c, 0#1⟩] →
      countEvents isStart (seen [es] [s]) = 1 ∧ countEvents isStop (seen [es] [s]) = 0 ∧ pulses (seen [es] [s]) = [[c]])
end

