-- ==== Sys2Proof/Laws/State.lean ====
section
/-! SUPPORT. One lemma per field per state update: what the update writes, and that it leaves every other field alone. -/

namespace Sys2Proof.Machine

/-! ### `pinCfgOut` -/

@[simp] theorem pinCfgOut_sdaDir (s : State) : (pinCfgOut s).sdaDir = .out := rfl
@[simp] theorem pinCfgOut_sclDir (s : State) : (pinCfgOut s).sclDir = .out := rfl
@[simp] theorem pinCfgOut_sdaOut (s : State) : (pinCfgOut s).sdaOut = s.sdaOut := rfl
@[simp] theorem pinCfgOut_sclOut (s : State) : (pinCfgOut s).sclOut = s.sclOut := rfl
@[simp] theorem pinCfgOut_rsp (s : State) : (pinCfgOut s).rsp = s.rsp := rfl
@[simp] theorem pinCfgOut_argr (s : State) : (pinCfgOut s).argr = s.argr := rfl
@[simp] theorem pinCfgOut_opr (s : State) : (pinCfgOut s).opr = s.opr := rfl
@[simp] theorem pinCfgOut_ustep (s : State) : (pinCfgOut s).ustep = s.ustep := rfl
@[simp] theorem pinCfgOut_dly (s : State) : (pinCfgOut s).dly = s.dly := rfl
@[simp] theorem pinCfgOut_rspValid (s : State) : (pinCfgOut s).rspValid = s.rspValid := rfl
@[simp] theorem pinCfgOut_sample (s : State) : (pinCfgOut s).sample = s.sample := rfl
@[simp] theorem pinCfgOut_tr (s : State) : (pinCfgOut s).tr = s.tr := rfl
@[simp] theorem pinCfgOut_cmds (s : State) : (pinCfgOut s).cmds = s.cmds := rfl
@[simp] theorem pinCfgOut_draws (s : State) : (pinCfgOut s).draws = s.draws := rfl
@[simp] theorem pinCfgOut_drawIx (s : State) : (pinCfgOut s).drawIx = s.drawIx := rfl

/-! ### `takeDraw` -/

@[simp] theorem takeDraw_sdaDir (s : State) : (takeDraw s).sdaDir = s.sdaDir := rfl
@[simp] theorem takeDraw_sclDir (s : State) : (takeDraw s).sclDir = s.sclDir := rfl
@[simp] theorem takeDraw_sdaOut (s : State) : (takeDraw s).sdaOut = s.sdaOut := rfl
@[simp] theorem takeDraw_sclOut (s : State) : (takeDraw s).sclOut = s.sclOut := rfl
@[simp] theorem takeDraw_rsp (s : State) : (takeDraw s).rsp = s.rsp := rfl
@[simp] theorem takeDraw_argr (s : State) : (takeDraw s).argr = s.argr := rfl
@[simp] theorem takeDraw_opr (s : State) : (takeDraw s).opr = s.opr := rfl
@[simp] theorem takeDraw_ustep (s : State) : (takeDraw s).ustep = s.ustep := rfl
@[simp] theorem takeDraw_dly (s : State) : (takeDraw s).dly = s.dly := rfl
@[simp] theorem takeDraw_rspValid (s : State) : (takeDraw s).rspValid = s.rspValid := rfl
@[simp] theorem takeDraw_sample (s : State) : (takeDraw s).sample = s.sample := rfl
@[simp] theorem takeDraw_tr (s : State) : (takeDraw s).tr = s.tr := rfl
@[simp] theorem takeDraw_cmds (s : State) : (takeDraw s).cmds = s.cmds := rfl
@[simp] theorem takeDraw_draws (s : State) : (takeDraw s).draws = s.draws.tail := rfl
@[simp] theorem takeDraw_drawIx (s : State) : (takeDraw s).drawIx = s.drawIx + 1 := rfl

/-! ### `emit` -/

@[simp] theorem emit_sdaDir (e : Event) (s : State) : (emit e s).sdaDir = s.sdaDir := rfl
@[simp] theorem emit_sclDir (e : Event) (s : State) : (emit e s).sclDir = s.sclDir := rfl
@[simp] theorem emit_sdaOut (e : Event) (s : State) : (emit e s).sdaOut = s.sdaOut := rfl
@[simp] theorem emit_sclOut (e : Event) (s : State) : (emit e s).sclOut = s.sclOut := rfl
@[simp] theorem emit_rsp (e : Event) (s : State) : (emit e s).rsp = s.rsp := rfl
@[simp] theorem emit_argr (e : Event) (s : State) : (emit e s).argr = s.argr := rfl
@[simp] theorem emit_opr (e : Event) (s : State) : (emit e s).opr = s.opr := rfl
@[simp] theorem emit_ustep (e : Event) (s : State) : (emit e s).ustep = s.ustep := rfl
@[simp] theorem emit_dly (e : Event) (s : State) : (emit e s).dly = s.dly := rfl
@[simp] theorem emit_rspValid (e : Event) (s : State) : (emit e s).rspValid = s.rspValid := rfl
@[simp] theorem emit_sample (e : Event) (s : State) : (emit e s).sample = s.sample := rfl
@[simp] theorem emit_tr (e : Event) (s : State) : (emit e s).tr = s.tr ++ [e] := rfl
@[simp] theorem emit_cmds (e : Event) (s : State) : (emit e s).cmds = s.cmds := rfl
@[simp] theorem emit_draws (e : Event) (s : State) : (emit e s).draws = s.draws := rfl
@[simp] theorem emit_drawIx (e : Event) (s : State) : (emit e s).drawIx = s.drawIx := rfl

/-! ### `advance` -/

@[simp] theorem advance_sdaDir (s : State) : (advance s).sdaDir = s.sdaDir := rfl
@[simp] theorem advance_sclDir (s : State) : (advance s).sclDir = s.sclDir := rfl
@[simp] theorem advance_sdaOut (s : State) : (advance s).sdaOut = s.sdaOut := rfl
@[simp] theorem advance_sclOut (s : State) : (advance s).sclOut = s.sclOut := rfl
@[simp] theorem advance_rsp (s : State) : (advance s).rsp = s.rsp := rfl
@[simp] theorem advance_argr (s : State) : (advance s).argr = s.argr := rfl
@[simp] theorem advance_opr (s : State) : (advance s).opr = s.opr := rfl
@[simp] theorem advance_ustep (s : State) : (advance s).ustep = s.ustep + 1#6 := rfl
@[simp] theorem advance_dly (s : State) : (advance s).dly = s.dly := rfl
@[simp] theorem advance_rspValid (s : State) : (advance s).rspValid = s.rspValid := rfl
@[simp] theorem advance_sample (s : State) : (advance s).sample = s.sample := rfl
@[simp] theorem advance_tr (s : State) : (advance s).tr = s.tr := rfl
@[simp] theorem advance_cmds (s : State) : (advance s).cmds = s.cmds := rfl
@[simp] theorem advance_draws (s : State) : (advance s).draws = s.draws := rfl
@[simp] theorem advance_drawIx (s : State) : (advance s).drawIx = s.drawIx := rfl

/-! ### `setSample` -/

@[simp] theorem setSample_sdaDir (v : Bit) (s : State) : (setSample v s).sdaDir = s.sdaDir := rfl
@[simp] theorem setSample_sclDir (v : Bit) (s : State) : (setSample v s).sclDir = s.sclDir := rfl
@[simp] theorem setSample_sdaOut (v : Bit) (s : State) : (setSample v s).sdaOut = s.sdaOut := rfl
@[simp] theorem setSample_sclOut (v : Bit) (s : State) : (setSample v s).sclOut = s.sclOut := rfl
@[simp] theorem setSample_rsp (v : Bit) (s : State) : (setSample v s).rsp = s.rsp := rfl
@[simp] theorem setSample_argr (v : Bit) (s : State) : (setSample v s).argr = s.argr := rfl
@[simp] theorem setSample_opr (v : Bit) (s : State) : (setSample v s).opr = s.opr := rfl
@[simp] theorem setSample_ustep (v : Bit) (s : State) : (setSample v s).ustep = s.ustep := rfl
@[simp] theorem setSample_dly (v : Bit) (s : State) : (setSample v s).dly = s.dly := rfl
@[simp] theorem setSample_rspValid (v : Bit) (s : State) : (setSample v s).rspValid = s.rspValid := rfl
@[simp] theorem setSample_sample (v : Bit) (s : State) : (setSample v s).sample = v := rfl
@[simp] theorem setSample_tr (v : Bit) (s : State) : (setSample v s).tr = s.tr := rfl
@[simp] theorem setSample_cmds (v : Bit) (s : State) : (setSample v s).cmds = s.cmds := rfl
@[simp] theorem setSample_draws (v : Bit) (s : State) : (setSample v s).draws = s.draws := rfl
@[simp] theorem setSample_drawIx (v : Bit) (s : State) : (setSample v s).drawIx = s.drawIx := rfl

/-! ### `delayDone` -/

@[simp] theorem delayDone_sdaDir (s : State) : (delayDone s).sdaDir = s.sdaDir := rfl
@[simp] theorem delayDone_sclDir (s : State) : (delayDone s).sclDir = s.sclDir := rfl
@[simp] theorem delayDone_sdaOut (s : State) : (delayDone s).sdaOut = s.sdaOut := rfl
@[simp] theorem delayDone_sclOut (s : State) : (delayDone s).sclOut = s.sclOut := rfl
@[simp] theorem delayDone_rsp (s : State) : (delayDone s).rsp = s.rsp := rfl
@[simp] theorem delayDone_argr (s : State) : (delayDone s).argr = s.argr := rfl
@[simp] theorem delayDone_opr (s : State) : (delayDone s).opr = s.opr := rfl
@[simp] theorem delayDone_ustep (s : State) : (delayDone s).ustep = s.ustep := rfl
@[simp] theorem delayDone_dly (s : State) : (delayDone s).dly = 0 := rfl
@[simp] theorem delayDone_rspValid (s : State) : (delayDone s).rspValid = s.rspValid := rfl
@[simp] theorem delayDone_sample (s : State) : (delayDone s).sample = s.sample := rfl
@[simp] theorem delayDone_tr (s : State) : (delayDone s).tr = s.tr := rfl
@[simp] theorem delayDone_cmds (s : State) : (delayDone s).cmds = s.cmds := rfl
@[simp] theorem delayDone_draws (s : State) : (delayDone s).draws = s.draws := rfl
@[simp] theorem delayDone_drawIx (s : State) : (delayDone s).drawIx = s.drawIx := rfl

/-! ### `accept` -/

@[simp] theorem accept_sdaDir (o : Op) (arg : Byte) (s : State) : (accept o arg s).sdaDir = s.sdaDir := rfl
@[simp] theorem accept_sclDir (o : Op) (arg : Byte) (s : State) : (accept o arg s).sclDir = s.sclDir := rfl
@[simp] theorem accept_sdaOut (o : Op) (arg : Byte) (s : State) : (accept o arg s).sdaOut = s.sdaOut := rfl
@[simp] theorem accept_sclOut (o : Op) (arg : Byte) (s : State) : (accept o arg s).sclOut = s.sclOut := rfl
@[simp] theorem accept_rsp (o : Op) (arg : Byte) (s : State) : (accept o arg s).rsp = s.rsp := rfl
@[simp] theorem accept_argr (o : Op) (arg : Byte) (s : State) : (accept o arg s).argr = arg := rfl
@[simp] theorem accept_opr (o : Op) (arg : Byte) (s : State) : (accept o arg s).opr = .busy o := rfl
@[simp] theorem accept_ustep (o : Op) (arg : Byte) (s : State) : (accept o arg s).ustep = 0#6 := rfl
@[simp] theorem accept_dly (o : Op) (arg : Byte) (s : State) : (accept o arg s).dly = 0 := rfl
@[simp] theorem accept_rspValid (o : Op) (arg : Byte) (s : State) : (accept o arg s).rspValid = false := rfl
@[simp] theorem accept_sample (o : Op) (arg : Byte) (s : State) : (accept o arg s).sample = 0#1 := rfl
@[simp] theorem accept_tr (o : Op) (arg : Byte) (s : State) : (accept o arg s).tr = s.tr := rfl
@[simp] theorem accept_cmds (o : Op) (arg : Byte) (s : State) : (accept o arg s).cmds = s.cmds := rfl
@[simp] theorem accept_draws (o : Op) (arg : Byte) (s : State) : (accept o arg s).draws = s.draws := rfl
@[simp] theorem accept_drawIx (o : Op) (arg : Byte) (s : State) : (accept o arg s).drawIx = s.drawIx := rfl

/-! ### `respond` -/

@[simp] theorem respond_sdaDir (e : Event) (r : Rsp) (s : State) : (respond e r s).sdaDir = s.sdaDir := rfl
@[simp] theorem respond_sclDir (e : Event) (r : Rsp) (s : State) : (respond e r s).sclDir = s.sclDir := rfl
@[simp] theorem respond_sdaOut (e : Event) (r : Rsp) (s : State) : (respond e r s).sdaOut = s.sdaOut := rfl
@[simp] theorem respond_sclOut (e : Event) (r : Rsp) (s : State) : (respond e r s).sclOut = s.sclOut := rfl
@[simp] theorem respond_rsp (e : Event) (r : Rsp) (s : State) : (respond e r s).rsp = r := rfl
@[simp] theorem respond_argr (e : Event) (r : Rsp) (s : State) : (respond e r s).argr = s.argr := rfl
@[simp] theorem respond_opr (e : Event) (r : Rsp) (s : State) : (respond e r s).opr = s.opr := rfl
@[simp] theorem respond_ustep (e : Event) (r : Rsp) (s : State) : (respond e r s).ustep = s.ustep := rfl
@[simp] theorem respond_dly (e : Event) (r : Rsp) (s : State) : (respond e r s).dly = s.dly := rfl
@[simp] theorem respond_rspValid (e : Event) (r : Rsp) (s : State) : (respond e r s).rspValid = true := rfl
@[simp] theorem respond_sample (e : Event) (r : Rsp) (s : State) : (respond e r s).sample = s.sample := rfl
@[simp] theorem respond_tr (e : Event) (r : Rsp) (s : State) : (respond e r s).tr = s.tr ++ [e] := rfl
@[simp] theorem respond_cmds (e : Event) (r : Rsp) (s : State) : (respond e r s).cmds = s.cmds := rfl
@[simp] theorem respond_draws (e : Event) (r : Rsp) (s : State) : (respond e r s).draws = s.draws := rfl
@[simp] theorem respond_drawIx (e : Event) (r : Rsp) (s : State) : (respond e r s).drawIx = s.drawIx := rfl

/-! ### `retire` -/

@[simp] theorem retire_sdaDir (s : State) : (retire s).sdaDir = s.sdaDir := rfl
@[simp] theorem retire_sclDir (s : State) : (retire s).sclDir = s.sclDir := rfl
@[simp] theorem retire_sdaOut (s : State) : (retire s).sdaOut = s.sdaOut := rfl
@[simp] theorem retire_sclOut (s : State) : (retire s).sclOut = s.sclOut := rfl
@[simp] theorem retire_rsp (s : State) : (retire s).rsp = s.rsp := rfl
@[simp] theorem retire_argr (s : State) : (retire s).argr = s.argr := rfl
@[simp] theorem retire_opr (s : State) : (retire s).opr = .idle := rfl
@[simp] theorem retire_ustep (s : State) : (retire s).ustep = 0#6 := rfl
@[simp] theorem retire_dly (s : State) : (retire s).dly = 0 := rfl
@[simp] theorem retire_rspValid (s : State) : (retire s).rspValid = s.rspValid := rfl
@[simp] theorem retire_sample (s : State) : (retire s).sample = 0#1 := rfl
@[simp] theorem retire_tr (s : State) : (retire s).tr = s.tr := rfl
@[simp] theorem retire_cmds (s : State) : (retire s).cmds = s.cmds := rfl
@[simp] theorem retire_draws (s : State) : (retire s).draws = s.draws := rfl
@[simp] theorem retire_drawIx (s : State) : (retire s).drawIx = s.drawIx := rfl

/-! ### `pulseOver` -/

@[simp] theorem pulseOver_sdaDir (s : State) : (pulseOver s).sdaDir = s.sdaDir := rfl
@[simp] theorem pulseOver_sclDir (s : State) : (pulseOver s).sclDir = s.sclDir := rfl
@[simp] theorem pulseOver_sdaOut (s : State) : (pulseOver s).sdaOut = s.sdaOut := rfl
@[simp] theorem pulseOver_sclOut (s : State) : (pulseOver s).sclOut = s.sclOut := rfl
@[simp] theorem pulseOver_rsp (s : State) : (pulseOver s).rsp = s.rsp := rfl
@[simp] theorem pulseOver_argr (s : State) : (pulseOver s).argr = s.argr := rfl
@[simp] theorem pulseOver_opr (s : State) : (pulseOver s).opr = s.opr := rfl
@[simp] theorem pulseOver_ustep (s : State) : (pulseOver s).ustep = s.ustep := rfl
@[simp] theorem pulseOver_dly (s : State) : (pulseOver s).dly = s.dly := rfl
@[simp] theorem pulseOver_rspValid (s : State) : (pulseOver s).rspValid = false := rfl
@[simp] theorem pulseOver_sample (s : State) : (pulseOver s).sample = s.sample := rfl
@[simp] theorem pulseOver_tr (s : State) : (pulseOver s).tr = s.tr := rfl
@[simp] theorem pulseOver_cmds (s : State) : (pulseOver s).cmds = s.cmds := rfl
@[simp] theorem pulseOver_draws (s : State) : (pulseOver s).draws = s.draws := rfl
@[simp] theorem pulseOver_drawIx (s : State) : (pulseOver s).drawIx = s.drawIx := rfl

/-! ### `present` -/

@[simp] theorem present_sdaDir (w : CmdWord) (s : State) : (present w s).sdaDir = s.sdaDir := rfl
@[simp] theorem present_sclDir (w : CmdWord) (s : State) : (present w s).sclDir = s.sclDir := rfl
@[simp] theorem present_sdaOut (w : CmdWord) (s : State) : (present w s).sdaOut = s.sdaOut := rfl
@[simp] theorem present_sclOut (w : CmdWord) (s : State) : (present w s).sclOut = s.sclOut := rfl
@[simp] theorem present_rsp (w : CmdWord) (s : State) : (present w s).rsp = s.rsp := rfl
@[simp] theorem present_argr (w : CmdWord) (s : State) : (present w s).argr = s.argr := rfl
@[simp] theorem present_opr (w : CmdWord) (s : State) : (present w s).opr = s.opr := rfl
@[simp] theorem present_ustep (w : CmdWord) (s : State) : (present w s).ustep = s.ustep := rfl
@[simp] theorem present_dly (w : CmdWord) (s : State) : (present w s).dly = s.dly := rfl
@[simp] theorem present_rspValid (w : CmdWord) (s : State) : (present w s).rspValid = s.rspValid := rfl
@[simp] theorem present_sample (w : CmdWord) (s : State) : (present w s).sample = s.sample := rfl
@[simp] theorem present_tr (w : CmdWord) (s : State) : (present w s).tr = s.tr := rfl
@[simp] theorem present_cmds (w : CmdWord) (s : State) : (present w s).cmds = w :: s.cmds := rfl
@[simp] theorem present_draws (w : CmdWord) (s : State) : (present w s).draws = s.draws := rfl
@[simp] theorem present_drawIx (w : CmdWord) (s : State) : (present w s).drawIx = s.drawIx := rfl

/-! ### `takeCmd` -/

@[simp] theorem takeCmd_sdaDir (s : State) : (takeCmd s).sdaDir = s.sdaDir := rfl
@[simp] theorem takeCmd_sclDir (s : State) : (takeCmd s).sclDir = s.sclDir := rfl
@[simp] theorem takeCmd_sdaOut (s : State) : (takeCmd s).sdaOut = s.sdaOut := rfl
@[simp] theorem takeCmd_sclOut (s : State) : (takeCmd s).sclOut = s.sclOut := rfl
@[simp] theorem takeCmd_rsp (s : State) : (takeCmd s).rsp = s.rsp := rfl
@[simp] theorem takeCmd_argr (s : State) : (takeCmd s).argr = s.argr := rfl
@[simp] theorem takeCmd_opr (s : State) : (takeCmd s).opr = s.opr := rfl
@[simp] theorem takeCmd_ustep (s : State) : (takeCmd s).ustep = s.ustep := rfl
@[simp] theorem takeCmd_dly (s : State) : (takeCmd s).dly = s.dly := rfl
@[simp] theorem takeCmd_rspValid (s : State) : (takeCmd s).rspValid = s.rspValid := rfl
@[simp] theorem takeCmd_sample (s : State) : (takeCmd s).sample = s.sample := rfl
@[simp] theorem takeCmd_tr (s : State) : (takeCmd s).tr = s.tr := rfl
@[simp] theorem takeCmd_cmds (s : State) : (takeCmd s).cmds = s.cmds.tail := rfl
@[simp] theorem takeCmd_draws (s : State) : (takeCmd s).draws = s.draws := rfl
@[simp] theorem takeCmd_drawIx (s : State) : (takeCmd s).drawIx = s.drawIx := rfl

/-! ### `pinDir` -/

@[simp] theorem pinDir_sda_sdaDir (d : Dir) (s : State) : (pinDir .sda d s).sdaDir = d := rfl
@[simp] theorem pinDir_sda_sclDir (d : Dir) (s : State) : (pinDir .sda d s).sclDir = s.sclDir := rfl
@[simp] theorem pinDir_scl_sdaDir (d : Dir) (s : State) : (pinDir .scl d s).sdaDir = s.sdaDir := rfl
@[simp] theorem pinDir_scl_sclDir (d : Dir) (s : State) : (pinDir .scl d s).sclDir = d := rfl
@[simp] theorem pinDir_sdaOut (p : Pin) (d : Dir) (s : State) : (pinDir p d s).sdaOut = s.sdaOut := by cases p <;> rfl
@[simp] theorem pinDir_sclOut (p : Pin) (d : Dir) (s : State) : (pinDir p d s).sclOut = s.sclOut := by cases p <;> rfl
@[simp] theorem pinDir_rsp (p : Pin) (d : Dir) (s : State) : (pinDir p d s).rsp = s.rsp := by cases p <;> rfl
@[simp] theorem pinDir_argr (p : Pin) (d : Dir) (s : State) : (pinDir p d s).argr = s.argr := by cases p <;> rfl
@[simp] theorem pinDir_opr (p : Pin) (d : Dir) (s : State) : (pinDir p d s).opr = s.opr := by cases p <;> rfl
@[simp] theorem pinDir_ustep (p : Pin) (d : Dir) (s : State) : (pinDir p d s).ustep = s.ustep := by cases p <;> rfl
@[simp] theorem pinDir_dly (p : Pin) (d : Dir) (s : State) : (pinDir p d s).dly = s.dly := by cases p <;> rfl
@[simp] theorem pinDir_rspValid (p : Pin) (d : Dir) (s : State) : (pinDir p d s).rspValid = s.rspValid := by cases p <;> rfl
@[simp] theorem pinDir_sample (p : Pin) (d : Dir) (s : State) : (pinDir p d s).sample = s.sample := by cases p <;> rfl
@[simp] theorem pinDir_tr (p : Pin) (d : Dir) (s : State) : (pinDir p d s).tr = s.tr := by cases p <;> rfl
@[simp] theorem pinDir_cmds (p : Pin) (d : Dir) (s : State) : (pinDir p d s).cmds = s.cmds := by cases p <;> rfl
@[simp] theorem pinDir_draws (p : Pin) (d : Dir) (s : State) : (pinDir p d s).draws = s.draws := by cases p <;> rfl
@[simp] theorem pinDir_drawIx (p : Pin) (d : Dir) (s : State) : (pinDir p d s).drawIx = s.drawIx := by cases p <;> rfl

/-! ### `pinSet` -/

@[simp] theorem pinSet_sda_sdaOut (v : Bit) (s : State) : (pinSet .sda v s).sdaOut = v := rfl
@[simp] theorem pinSet_sda_sclOut (v : Bit) (s : State) : (pinSet .sda v s).sclOut = s.sclOut := rfl
@[simp] theorem pinSet_scl_sdaOut (v : Bit) (s : State) : (pinSet .scl v s).sdaOut = s.sdaOut := rfl
@[simp] theorem pinSet_scl_sclOut (v : Bit) (s : State) : (pinSet .scl v s).sclOut = v := rfl
@[simp] theorem pinSet_sdaDir (p : Pin) (v : Bit) (s : State) : (pinSet p v s).sdaDir = s.sdaDir := by cases p <;> rfl
@[simp] theorem pinSet_sclDir (p : Pin) (v : Bit) (s : State) : (pinSet p v s).sclDir = s.sclDir := by cases p <;> rfl
@[simp] theorem pinSet_rsp (p : Pin) (v : Bit) (s : State) : (pinSet p v s).rsp = s.rsp := by cases p <;> rfl
@[simp] theorem pinSet_argr (p : Pin) (v : Bit) (s : State) : (pinSet p v s).argr = s.argr := by cases p <;> rfl
@[simp] theorem pinSet_opr (p : Pin) (v : Bit) (s : State) : (pinSet p v s).opr = s.opr := by cases p <;> rfl
@[simp] theorem pinSet_ustep (p : Pin) (v : Bit) (s : State) : (pinSet p v s).ustep = s.ustep := by cases p <;> rfl
@[simp] theorem pinSet_dly (p : Pin) (v : Bit) (s : State) : (pinSet p v s).dly = s.dly := by cases p <;> rfl
@[simp] theorem pinSet_rspValid (p : Pin) (v : Bit) (s : State) : (pinSet p v s).rspValid = s.rspValid := by cases p <;> rfl
@[simp] theorem pinSet_sample (p : Pin) (v : Bit) (s : State) : (pinSet p v s).sample = s.sample := by cases p <;> rfl
@[simp] theorem pinSet_tr (p : Pin) (v : Bit) (s : State) : (pinSet p v s).tr = s.tr := by cases p <;> rfl
@[simp] theorem pinSet_cmds (p : Pin) (v : Bit) (s : State) : (pinSet p v s).cmds = s.cmds := by cases p <;> rfl
@[simp] theorem pinSet_draws (p : Pin) (v : Bit) (s : State) : (pinSet p v s).draws = s.draws := by cases p <;> rfl
@[simp] theorem pinSet_drawIx (p : Pin) (v : Bit) (s : State) : (pinSet p v s).drawIx = s.drawIx := by cases p <;> rfl

end Sys2Proof.Machine
end

