-- ==== Sys2Proof/Laws/Ops.lean ====
section
/-! SUPPORT. One spec lemma per shared operation: what it can do, said once, for later proofs to cite instead of unfolding. -/

namespace Sys2Proof.Machine

/-! ### Micro-operations -/

@[simp] theorem runMicro_nil (s : State) : runMicro [] s = s := rfl

@[simp] theorem runMicro_cons (m : MicroOp) (ms : List MicroOp) (s : State) :
    runMicro (m :: ms) s = runMicro ms (envStep m (microStep (nextDraw s) m s)) := rfl

/-- Running two lists one after the other is running their concatenation. -/
theorem runMicro_append (ms ns : List MicroOp) (s : State) :
    runMicro (ms ++ ns) s = runMicro ns (runMicro ms s) := by
  induction ms generalizing s with
  | nil => rfl
  | cons m ms ih => exact ih _

/-- A field that neither a micro-operation nor the environment's move changes is unchanged by a whole list. -/
theorem runMicro_frame {α : Type} (f : State → α)
    (h : ∀ ext m s, f (envStep m (microStep ext m s)) = f s) (ms : List MicroOp) (s : State) :
    f (runMicro ms s) = f s := by
  induction ms generalizing s with
  | nil => rfl
  | cons m ms ih => exact (ih _).trans (h _ m s)

theorem envStep_microStep_argr (ext : Bit) (m : MicroOp) (s : State) :
    (envStep m (microStep ext m s)).argr = s.argr := by cases m <;> simp [envStep, microStep]

theorem envStep_microStep_opr (ext : Bit) (m : MicroOp) (s : State) :
    (envStep m (microStep ext m s)).opr = s.opr := by cases m <;> simp [envStep, microStep]

theorem envStep_microStep_rsp (ext : Bit) (m : MicroOp) (s : State) :
    (envStep m (microStep ext m s)).rsp = s.rsp := by cases m <;> simp [envStep, microStep]

theorem envStep_microStep_rspValid (ext : Bit) (m : MicroOp) (s : State) :
    (envStep m (microStep ext m s)).rspValid = s.rspValid := by cases m <;> simp [envStep, microStep]

theorem envStep_microStep_cmds (ext : Bit) (m : MicroOp) (s : State) :
    (envStep m (microStep ext m s)).cmds = s.cmds := by cases m <;> simp [envStep, microStep]

@[simp] theorem runMicro_argr (ms : List MicroOp) (s : State) : (runMicro ms s).argr = s.argr :=
  runMicro_frame State.argr envStep_microStep_argr ms s

@[simp] theorem runMicro_opr (ms : List MicroOp) (s : State) : (runMicro ms s).opr = s.opr :=
  runMicro_frame State.opr envStep_microStep_opr ms s

@[simp] theorem runMicro_rsp (ms : List MicroOp) (s : State) : (runMicro ms s).rsp = s.rsp :=
  runMicro_frame State.rsp envStep_microStep_rsp ms s

@[simp] theorem runMicro_rspValid (ms : List MicroOp) (s : State) : (runMicro ms s).rspValid = s.rspValid :=
  runMicro_frame State.rspValid envStep_microStep_rspValid ms s

@[simp] theorem runMicro_cmds (ms : List MicroOp) (s : State) : (runMicro ms s).cmds = s.cmds :=
  runMicro_frame State.cmds envStep_microStep_cmds ms s

/-- The event a micro-operation leaves in the trace (00_scope.md R7). -/
theorem microStep_tr (ext : Bit) (m : MicroOp) (s : State) :
    ∃ e, (envStep m (microStep ext m s)).tr = s.tr ++ [e] := by
  cases m <;> exact ⟨_, by simp [envStep, microStep]; rfl⟩

/-- A list of micro-operations only adds to the trace, one event each. -/
theorem runMicro_tr (ms : List MicroOp) (s : State) :
    ∃ es, (runMicro ms s).tr = s.tr ++ es ∧ es.length = ms.length := by
  induction ms generalizing s with
  | nil => exact ⟨[], by simp⟩
  | cons m ms ih =>
    obtain ⟨e, he⟩ := microStep_tr (nextDraw s) m s
    obtain ⟨es, hes, hl⟩ := ih (envStep m (microStep (nextDraw s) m s))
    exact ⟨e :: es, by simp [hes, he], by simp [hl]⟩

/-- The pins after a micro-operation depend on the pins before it only. -/
theorem microStep_pins (v w : Bit) (m : MicroOp) (s t : State)
    (h : s.sdaDir = t.sdaDir ∧ s.sclDir = t.sclDir ∧ s.sdaOut = t.sdaOut ∧ s.sclOut = t.sclOut) :
    (envStep m (microStep v m s)).sdaDir = (envStep m (microStep w m t)).sdaDir ∧
    (envStep m (microStep v m s)).sclDir = (envStep m (microStep w m t)).sclDir ∧
    (envStep m (microStep v m s)).sdaOut = (envStep m (microStep w m t)).sdaOut ∧
    (envStep m (microStep v m s)).sclOut = (envStep m (microStep w m t)).sclOut := by
  obtain ⟨h1, h2, h3, h4⟩ := h
  cases m with
  | cfgOut => simp [envStep, microStep, *]
  | dir p d => cases p <;> simp [envStep, microStep, *]
  | set p b => cases p <;> simp [envStep, microStep, *]
  | get => simp [envStep, microStep, *]
  | delay d => simp [envStep, microStep, *]

/-- The pins after a list depend on the pins before it only (40_bit_transport.md R60). -/
theorem runMicro_pins (ms : List MicroOp) (s t : State)
    (h : s.sdaDir = t.sdaDir ∧ s.sclDir = t.sclDir ∧ s.sdaOut = t.sdaOut ∧ s.sclOut = t.sclOut) :
    (runMicro ms s).sdaDir = (runMicro ms t).sdaDir ∧ (runMicro ms s).sclDir = (runMicro ms t).sclDir ∧
    (runMicro ms s).sdaOut = (runMicro ms t).sdaOut ∧ (runMicro ms s).sclOut = (runMicro ms t).sclOut := by
  induction ms generalizing s t with
  | nil => exact h
  | cons m ms ih => exact ih _ _ (microStep_pins _ _ m s t h)

/-! ### Completion -/

/-- Completion, whichever way it ends: R50's response, the response event, the sequencer idle (30_encoding.md R50, R58). -/
theorem complete_eq (o : Op) (s : State) :
    complete o s = respond (.rsp o (responseOf o s.sample)) (responseOf o s.sample) (retire s) := by
  unfold complete
  cases o with
  | sendByte =>
    rcases (by decide : ∀ v : Bit, v = 0#1 ∨ v = 1#1) s.sample with h | h <;>
      simp [errorOf, raise, errEvent, errRsp, responseOf, mkRsp, h]
  | claim => rfl
  | sendBit => rfl
  | readBit => rfl
  | release => rfl

/-- Every response is one of the four values R50 produces. -/
theorem responseOf_legal (o : Op) (v : Bit) :
    responseOf o v = 0b000#3 ∨ responseOf o v = 0b001#3 ∨ responseOf o v = 0b011#3 := by
  revert v
  cases o <;> decide

/-! ### Commands -/

/-- What `perform` can answer: nothing happens while busy, a refusal on a broken precondition, else the whole life of the
command. -/
theorem perform_next {o : Op} {arg : Byte} {ms : List MicroOp} {s t : State} (h : perform o arg ms s = .next t) :
    ((∃ o', s.opr = .busy o') ∧ t = s) ∨
      (s.opr = .idle ∧ precondition o s = none ∧ t = complete o (runMicro ms (accept o arg s))) := by
  unfold perform at h
  split at h
  · next o' ho => exact .inl ⟨⟨o', ho⟩, by simpa using h.symm⟩
  · next ho =>
    split at h
    · exact absurd h (by simp)
    · next hp => exact .inr ⟨ho, hp, by simpa using h.symm⟩

theorem perform_idle {o : Op} {arg : Byte} {ms : List MicroOp} {s : State} (hi : s.opr = .idle)
    (hp : precondition o s = none) :
    perform o arg ms s = .next (complete o (runMicro ms (accept o arg s))) := by
  simp [perform, hi, hp]

theorem perform_refused {o : Op} {arg : Byte} {ms : List MicroOp} {s : State} {r : Refusal} (hi : s.opr = .idle)
    (hp : precondition o s = some r) : perform o arg ms s = .refused r := by
  simp [perform, hi, hp]

theorem perform_busy {o o' : Op} {arg : Byte} {ms : List MicroOp} {s : State} (hb : s.opr = .busy o') :
    perform o arg ms s = .next s := by
  simp [perform, hb]

/-- Every instruction is one `perform` of its operation over its list. -/
theorem exec_eq (i : Instr) (s : State) :
    exec i s = perform i.op (argOf i) (microOps i.op (argOf i)) s := by
  cases i <;> rfl

/-- The precondition of an operation that works on a claimed bus, met. -/
theorem needsClaimed_none {o : Op} {s : State} :
    needsClaimed o s = none ↔ Claimed s ∧ s.sclOut = 0#1 := by
  unfold needsClaimed
  split
  · next h =>
    split
    · next h' => exact ⟨fun _ => ⟨h, h'⟩, fun _ => rfl⟩
    · next h' => exact ⟨(fun e => nomatch e), fun e => absurd e.2 h'⟩
  · next h => exact ⟨(fun e => nomatch e), fun e => absurd e.1 h⟩

/-- The precondition of CLAIM, met. -/
theorem needsReleased_none {s : State} :
    needsReleased s = none ↔ Released s ∧ s.sdaOut = 1#1 ∧ s.sclOut = 1#1 := by
  unfold needsReleased
  split
  · next h =>
    split
    · next h' => exact ⟨fun _ => ⟨h, h'⟩, fun _ => rfl⟩
    · next h' => exact ⟨(fun e => nomatch e), fun e => absurd e.2 h'⟩
  · next h => exact ⟨(fun e => nomatch e), fun e => absurd e.1 h⟩

/-- The preconditions look at the pins only. -/
theorem precondition_pins (o : Op) (s t : State)
    (h : s.sdaDir = t.sdaDir ∧ s.sclDir = t.sclDir ∧ s.sdaOut = t.sdaOut ∧ s.sclOut = t.sclOut) :
    precondition o s = precondition o t := by
  obtain ⟨h1, h2, h3, h4⟩ := h
  cases o <;> simp only [precondition, needsClaimed, needsReleased, Claimed, Released, h1, h2, h3, h4]

/-- What a step can do. -/
theorem step_cases (s : State) :
    (∃ o, s.opr = .busy o ∧ step s = .next (finish o s)) ∨
    (s.opr = .idle ∧ s.cmds = [] ∧ step s = .next (idleHold s)) ∨
    (∃ w ws i, s.opr = .idle ∧ s.cmds = w :: ws ∧ decode w = .ok i ∧ step s = exec i (takeCmd s)) ∨
    (∃ w ws e, s.opr = .idle ∧ s.cmds = w :: ws ∧ decode w = .error e ∧
      step s = .next (acceptIllegal (takeCmd s))) := by
  unfold step
  cases ho : s.opr with
  | busy o => exact .inl ⟨o, rfl, rfl⟩
  | idle =>
    cases hc : s.cmds with
    | nil => exact .inr (.inl ⟨rfl, rfl, rfl⟩)
    | cons w ws =>
      cases hd : decode w with
      | ok i => exact .inr (.inr (.inl ⟨w, ws, i, rfl, rfl, hd, by simp [hd]⟩))
      | error e => exact .inr (.inr (.inr ⟨w, ws, e, rfl, rfl, hd, by simp [hd]⟩))

end Sys2Proof.Machine
end

