-- ==== Sys2Proof/Laws/Lists.lean ====
section
/-! SUPPORT. What running each operation's list does, said once: the pins, the sample, the trace and the environment's answers. -/

namespace Sys2Proof.Machine

theorem runMicro_claimOps (s : State) :
    runMicro claimOps s = { s with
      sdaDir := .out, sclDir := .out, sdaOut := 0#1, sclOut := 0#1, dly := 0, ustep := s.ustep + 5#6,
      tr := s.tr ++ [.cfgOut, .set .sda 0#1, .dly .unit, .set .scl 0#1, .dly .unit] } := by
  simp [claimOps, envStep, microStep, advance, emit, pinCfgOut, pinSet, delayDone, BitVec.add_assoc]

theorem runMicro_sendBitOps (level : Bit) (s : State) :
    runMicro (sendBitOps level) s = { s with
      sdaOut := level, sclOut := 0#1, dly := 0, ustep := s.ustep + 4#6,
      tr := s.tr ++ [.set .sda level, .set .scl 1#1, .dly .unit, .set .scl 0#1] } := by
  simp [sendBitOps, envStep, microStep, advance, emit, pinSet, delayDone, BitVec.add_assoc]

theorem runMicro_readBitOps (s : State) :
    runMicro readBitOps s = { s with
      sdaDir := .out, sclOut := 0#1, sample := nextDraw s, dly := 0, ustep := s.ustep + 7#6,
      draws := s.draws.tail, drawIx := s.drawIx + 1,
      tr := s.tr ++ [.dir .sda .inp, .set .scl 1#1, .dly .half, .get (nextDraw s), .dly .half, .set .scl 0#1,
        .dir .sda .out] } := by
  simp [readBitOps, envStep, microStep, advance, emit, pinDir, pinSet, delayDone, setSample, takeDraw, pinGet, lineLevel,
    dirOf, nextDraw, BitVec.add_assoc]

theorem runMicro_releaseOps (s : State) :
    runMicro releaseOps s = { s with
      sdaDir := .inp, sclDir := .inp, sdaOut := 1#1, sclOut := 1#1, dly := 0, ustep := s.ustep + 5#6,
      tr := s.tr ++ [.set .scl 1#1, .dir .scl .inp, .dly .unit, .set .sda 1#1, .dir .sda .inp] } := by
  simp [releaseOps, envStep, microStep, advance, emit, pinDir, pinSet, delayDone, BitVec.add_assoc]

/-- `(byte >> i) & 1` is bit `i` of the byte (41_byte_framer.md R81). -/
theorem bitOf_eq (byte : Byte) (i : Nat) : bitOf byte i = byte.extractLsb' i 1 := by
  unfold bitOf
  apply BitVec.eq_of_getLsbD_eq
  intro k hk
  have : k = 0 := by omega
  subst this
  simp

/-- SENDBYTE's list ends with READBIT's, and before it come the eight pulses, bit 7 first (41_byte_framer.md R80). -/
theorem runMicro_sendByteOps (byte : Byte) (s : State) :
    runMicro (sendByteOps byte) s = { s with
      sdaDir := .out, sdaOut := bitOf byte 0, sclOut := 0#1, sample := nextDraw s, dly := 0,
      ustep := s.ustep + 39#6, draws := s.draws.tail, drawIx := s.drawIx + 1,
      tr := s.tr ++ ((bitOrder.flatMap fun i =>
          [.set .sda (bitOf byte i), .set .scl 1#1, .dly .unit, .set .scl 0#1]) ++
        [.dir .sda .inp, .set .scl 1#1, .dly .half, .get (nextDraw s), .dly .half, .set .scl 0#1, .dir .sda .out]) } := by
  simp [sendByteOps, bitsOf, bitOrder, runMicro_append, runMicro_sendBitOps, runMicro_readBitOps, nextDraw,
    BitVec.add_assoc]

end Sys2Proof.Machine
end

