-- ==== Sys2Proof/Laws/Exec.lean ====
section
/-! SUPPORT. What executing an instruction can do: run to completion where its precondition holds, be refused where it does
not, nothing while the block is busy. -/

namespace Sys2Proof.Machine

theorem bit_cases (v : Bit) : v = 0#1 ∨ v = 1#1 := by revert v; decide

/-- A SENDBYTE's response: success for an acknowledgment 0, the NACK word otherwise (30_encoding.md R50). -/
theorem responseOf_sendByte (a : Bit) : responseOf .sendByte a = if a = 0#1 then 0b000#3 else 0b011#3 := by
  revert a; decide

/-- The precondition of CLAIM (40_bit_transport.md R61). -/
theorem precondition_claim {s : State} :
    precondition .claim s = none ↔ Released s ∧ s.sdaOut = 1#1 ∧ s.sclOut = 1#1 := needsReleased_none

/-- The precondition of every other operation (40_bit_transport.md R63, R65, R68; 41_byte_framer.md R80). -/
theorem precondition_claimed {o : Op} (ho : o ≠ .claim) {s : State} :
    precondition o s = none ↔ Claimed s ∧ s.sclOut = 0#1 := by
  cases o with
  | claim => exact absurd rfl ho
  | sendBit => exact needsClaimed_none
  | readBit => exact needsClaimed_none
  | release => exact needsClaimed_none
  | sendByte => exact needsClaimed_none

/-- The state an accepted instruction ends in. -/
def lifeOf (i : Instr) (s : State) : State :=
  complete i.op (runMicro (microOps i.op (argOf i)) (accept i.op (argOf i) s))

theorem exec_run {i : Instr} {s : State} (hi : s.opr = .idle) (hp : precondition i.op s = none) :
    exec i s = .next (lifeOf i s) := by
  rw [exec_eq, perform_idle hi hp, lifeOf]

theorem exec_refused {i : Instr} {s : State} {r : Refusal} (hi : s.opr = .idle) (hp : precondition i.op s = some r) :
    exec i s = .refused r := by
  rw [exec_eq, perform_refused hi hp]

theorem exec_busy {i : Instr} {s : State} {o : Op} (hb : s.opr = .busy o) : exec i s = .next s := by
  rw [exec_eq, perform_busy hb]

/-- The inversion of a completed execution of an idle block. -/
theorem exec_next {i : Instr} {s t : State} (hi : s.opr = .idle) (h : exec i s = .next t) :
    precondition i.op s = none ∧ t = lifeOf i s := by
  rw [exec_eq] at h
  rcases perform_next h with ⟨⟨o, ho⟩, _⟩ | ⟨_, hp, ht⟩
  · rw [hi] at ho; exact absurd ho (by simp)
  · exact ⟨hp, ht⟩

/-- Finishing an operation that has just been accepted is its whole life. -/
theorem finish_accept (i : Instr) (s : State) : finish i.op (accept i.op (argOf i) s) = lifeOf i s := by
  simp [finish, remaining, lifeOf]

/-- Completion, field by field where it matters. -/
theorem complete_fields (o : Op) (s : State) :
    (complete o s).opr = .idle ∧ (complete o s).ustep = 0#6 ∧ (complete o s).dly = 0 ∧
    (complete o s).rspValid = true ∧ (complete o s).rsp = responseOf o s.sample ∧
    (complete o s).tr = s.tr ++ [.rsp o (responseOf o s.sample)] ∧ (complete o s).argr = s.argr ∧
    (complete o s).cmds = s.cmds ∧ (complete o s).draws = s.draws ∧ (complete o s).drawIx = s.drawIx := by
  rw [complete_eq]; exact ⟨rfl, rfl, rfl, rfl, rfl, rfl, rfl, rfl, rfl, rfl⟩

/-- Completion leaves the pins alone. -/
theorem complete_pins (o : Op) (s : State) :
    (complete o s).sdaDir = s.sdaDir ∧ (complete o s).sclDir = s.sclDir ∧ (complete o s).sdaOut = s.sdaOut ∧
    (complete o s).sclOut = s.sclOut := by
  rw [complete_eq]; exact ⟨rfl, rfl, rfl, rfl⟩

/-! ### The five lives -/

theorem lifeOf_claim (s : State) :
    lifeOf .claim s = { s with
      sdaDir := .out, sclDir := .out, sdaOut := 0#1, sclOut := 0#1, rsp := 0b000#3, argr := 0x00#8, opr := .idle,
      ustep := 0#6, dly := 0, sample := 0#1, rspValid := true,
      tr := s.tr ++ [.cfgOut, .set .sda 0#1, .dly .unit, .set .scl 0#1, .dly .unit, .rsp .claim 0b000#3] } := by
  simp [lifeOf, microOps, Instr.op, argOf, runMicro_claimOps, accept, complete_eq, retire, respond, responseOf]

theorem lifeOf_sendBit (level : Bit) (s : State) :
    lifeOf (.sendBit level) s = { s with
      sdaOut := level, sclOut := 0#1, rsp := 0b000#3, argr := level.setWidth 8, opr := .idle,
      ustep := 0#6, dly := 0, sample := 0#1, rspValid := true,
      tr := s.tr ++ [.set .sda level, .set .scl 1#1, .dly .unit, .set .scl 0#1, .rsp .sendBit 0b000#3] } := by
  have h : levelOf (level.setWidth 8) = level := by revert level; decide
  simp [lifeOf, microOps, Instr.op, argOf, runMicro_sendBitOps, accept, complete_eq, retire, respond, responseOf, h]

theorem lifeOf_readBit (s : State) :
    lifeOf .readBit s = { s with
      sdaDir := .out, sclOut := 0#1, rsp := responseOf .readBit (nextDraw s), argr := 0x00#8, opr := .idle,
      ustep := 0#6, dly := 0, sample := 0#1, rspValid := true, draws := s.draws.tail, drawIx := s.drawIx + 1,
      tr := s.tr ++ [.dir .sda .inp, .set .scl 1#1, .dly .half, .get (nextDraw s), .dly .half, .set .scl 0#1,
        .dir .sda .out, .rsp .readBit (responseOf .readBit (nextDraw s))] } := by
  have h : nextDraw (accept .readBit 0x00#8 s) = nextDraw s := rfl
  simp only [lifeOf, microOps, Instr.op, argOf, runMicro_readBitOps, complete_eq, h]
  simp [accept, retire, respond]

theorem lifeOf_release (s : State) :
    lifeOf .release s = { s with
      sdaDir := .inp, sclDir := .inp, sdaOut := 1#1, sclOut := 1#1, rsp := 0b000#3, argr := 0x00#8, opr := .idle,
      ustep := 0#6, dly := 0, sample := 0#1, rspValid := true,
      tr := s.tr ++ [.set .scl 1#1, .dir .scl .inp, .dly .unit, .set .sda 1#1, .dir .sda .inp,
        .rsp .release 0b000#3] } := by
  simp [lifeOf, microOps, Instr.op, argOf, runMicro_releaseOps, accept, complete_eq, retire, respond, responseOf]

theorem lifeOf_sendByte (byte : Byte) (s : State) :
    lifeOf (.sendByte byte) s = { s with
      sdaDir := .out, sdaOut := byte.extractLsb' 0 1, sclOut := 0#1, rsp := responseOf .sendByte (nextDraw s),
      argr := byte, opr := .idle, ustep := 0#6, dly := 0, sample := 0#1, rspValid := true,
      draws := s.draws.tail, drawIx := s.drawIx + 1,
      tr := s.tr ++ ((bitOrder.flatMap fun i =>
          [.set .sda (byte.extractLsb' i 1), .set .scl 1#1, .dly .unit, .set .scl 0#1]) ++
        [.dir .sda .inp, .set .scl 1#1, .dly .half, .get (nextDraw s), .dly .half, .set .scl 0#1, .dir .sda .out,
          .rsp .sendByte (responseOf .sendByte (nextDraw s))]) } := by
  have h : nextDraw (accept .sendByte byte s) = nextDraw s := rfl
  simp only [lifeOf, microOps, Instr.op, argOf, runMicro_sendByteOps, complete_eq, h, bitOf_eq]
  simp [accept, retire, respond]

end Sys2Proof.Machine
end

