-- ==== Sys2Proof/Laws/Circuit.lean ====
section
/-! SUPPORT. What one clock cycle of a busy circuit does to the life of the operation in flight: it does not change where the
operation ends, and it brings the end one cycle nearer. -/

namespace Sys2Proof.Machine

/-- No delay is empty (70_reset_and_hazards.md R141). -/
theorem cycles_pos (p : Params) (d : Span) : 0 < p.cycles d := by
  have := p.pos
  cases d <;> simp [Params.cycles, Params.tUnit] <;> omega

/-! ### What the end of an operation does not depend on -/

/-- A state with the sequencer's pacing forgotten: completion overwrites these three fields. -/
def unpaced (s : State) : State := { s with dly := 0, rspValid := false, ustep := 0#6 }

theorem complete_unpaced {o : Op} {s t : State} (h : unpaced s = unpaced t) : complete o s = complete o t := by
  have e : ∀ u : State, complete o u = complete o (unpaced u) := by
    intro u; rw [complete_eq, complete_eq]; rfl
  rw [e s, e t, h]

theorem micro_unpaced (m : MicroOp) {s t : State} (h : unpaced s = unpaced t) :
    unpaced (envStep m (microStep (nextDraw s) m s)) = unpaced (envStep m (microStep (nextDraw t) m t)) := by
  have e : ∀ u : State, unpaced (envStep m (microStep (nextDraw u) m u)) =
      unpaced (envStep m (microStep (nextDraw (unpaced u)) m (unpaced u))) := by
    intro u
    cases m with
    | dir p d => cases p <;> rfl
    | set p v => cases p <;> rfl
    | cfgOut => rfl
    | get => rfl
    | delay d => rfl
  rw [e s, e t, h]

theorem runMicro_unpaced (ms : List MicroOp) {s t : State} (h : unpaced s = unpaced t) :
    unpaced (runMicro ms s) = unpaced (runMicro ms t) := by
  induction ms generalizing s t with
  | nil => exact h
  | cons m ms ih => exact ih (micro_unpaced m h)

theorem microOps_length (o : Op) (b : Byte) : (microOps o b).length ≤ 39 := by
  cases o <;> simp [microOps, claimOps, sendBitOps, readBitOps, releaseOps, sendByteOps, bitsOf, bitOrder]

theorem microStep_ustep (v : Bit) (m : MicroOp) (s : State) :
    (envStep m (microStep v m s)).ustep = s.ustep + 1#6 := by
  cases m with
  | dir p d => cases p <;> rfl
  | set p b => cases p <;> rfl
  | cfgOut => rfl
  | get => rfl
  | delay d => rfl

/-- `USTEP` does not wrap inside a list (10_state.md R18). -/
theorem ustep_succ {o : Op} {b : Byte} {u : BitVec 6} (h : u.toNat < (microOps o b).length) :
    (u + 1#6).toNat = u.toNat + 1 := by
  have := microOps_length o b
  rw [BitVec.toNat_add]
  simp
  omega

/-! ### What an edge can do -/

theorem microStep_ustep' (v : Bit) (m : MicroOp) (s : State) : (microStep v m s).ustep = s.ustep + 1#6 := by
  have := microStep_ustep v m s
  cases m <;> exact this

/-- What an edge of a busy circuit can do: complete from beyond the list's end, count a delay down, complete after the last
micro-operation, or go on to the next, loading its delay. -/
theorem microEdge_cases (p : Params) (ext : Bit) (o : Op) (s : State) :
    ((microOps o s.argr).length ≤ s.ustep.toNat ∧ microEdge p ext o s = complete o s) ∨
    ∃ m, (microOps o s.argr)[s.ustep.toNat]? = some m ∧
      ((stillCounting m s = true ∧ microEdge p ext o s = countDown s) ∨
       (stillCounting m s = false ∧ (microOps o s.argr).length = s.ustep.toNat + 1 ∧
         microEdge p ext o s = complete o (microStep ext m s)) ∨
       (stillCounting m s = false ∧ s.ustep.toNat + 1 < (microOps o s.argr).length ∧
         (microStep ext m s).ustep.toNat = s.ustep.toNat + 1 ∧
         microEdge p ext o s = loadDelay p (microOps o s.argr) (microStep ext m s))) := by
  unfold microEdge
  cases hm : (microOps o s.argr)[s.ustep.toNat]? with
  | none => exact .inl ⟨by simpa using hm, rfl⟩
  | some m =>
    have hlt := (List.getElem?_eq_some_iff.1 hm).1
    have hu : (microStep ext m s).ustep.toNat = s.ustep.toNat + 1 := by
      rw [microStep_ustep']; exact ustep_succ hlt
    refine .inr ⟨m, rfl, ?_⟩
    cases hc : stillCounting m s with
    | true => exact .inl ⟨rfl, by simp [hc]⟩
    | false =>
      simp only [hc, afterMicro, hu]
      by_cases hl : (microOps o s.argr).length ≤ s.ustep.toNat + 1
      · exact .inr (.inl ⟨by simp, by omega, by simp [hl]⟩)
      · exact .inr (.inr ⟨by simp, by omega, by simp, by simp [hl]⟩)

/-- Accepting never starts with a delay. -/
theorem acceptEdge_load (p : Params) (i : Instr) (s : State) :
    loadDelay p (microOps i.op (argOf i)) (accept i.op (argOf i) s) = accept i.op (argOf i) s := by
  have h : delayLoad p (microOps i.op (argOf i))[0]? = 0 := by cases i <;> rfl
  simp [loadDelay, accept, h]

/-- What a clock edge that ends in a next state can do. -/
theorem clockEdge_cases {p : Params} {i : PortIn} {s t : State} (h : clockEdge p i s = .next t) :
    (i.rst = true ∧ t = applyReset s) ∨
    (i.rst = false ∧ ∃ o, s.opr = .busy o ∧ t = microEdge p i.extSda o (pulseOver s)) ∨
    (i.rst = false ∧ s.opr = .idle ∧ i.cmdValid = false ∧ t = idleHold s) ∨
    (i.rst = false ∧ s.opr = .idle ∧ i.cmdValid = true ∧ ∃ j, decode i.cmd = .ok j ∧ precondition j.op s = none ∧
      t = accept j.op (argOf j) s) ∨
    (i.rst = false ∧ s.opr = .idle ∧ i.cmdValid = true ∧ ∃ e, decode i.cmd = .error e ∧ t = acceptIllegal s) := by
  unfold clockEdge at h
  cases hr : i.rst with
  | true => exact .inl ⟨rfl, by simpa [hr] using h.symm⟩
  | false =>
    simp only [hr, Bool.false_eq_true, if_false] at h
    cases ho : s.opr with
    | busy o => exact .inr (.inl ⟨rfl, o, rfl, by simpa [ho] using h.symm⟩)
    | idle =>
      simp only [ho] at h
      cases hv : i.cmdValid with
      | false => exact .inr (.inr (.inl ⟨rfl, rfl, rfl, by simpa [hv] using h.symm⟩))
      | true =>
        simp only [hv, if_true, commandEdge] at h
        cases hd : decode i.cmd with
        | error e => exact .inr (.inr (.inr (.inr ⟨rfl, rfl, rfl, e, rfl, by simpa [hd] using h.symm⟩)))
        | ok j =>
          simp only [hd, acceptEdge, acceptEdge_load] at h
          cases hp : precondition j.op s with
          | some r => simp [hp] at h
          | none => exact .inr (.inr (.inr (.inl ⟨rfl, rfl, rfl, j, rfl, hp, by simpa [hp] using h.symm⟩)))

/-! ### How far the end is -/

/-- The cycles the current micro-operation has still to take. -/
def cyclesNow (s : State) (m : MicroOp) : Nat :=
  match m with
  | .delay _ => max 1 s.dly
  | .cfgOut => 1
  | .dir _ _ => 1
  | .set _ _ => 1
  | .get => 1

/-- The cycles a busy block has still to take to its completing edge. -/
def cyclesLeft (p : Params) (o : Op) (s : State) : Nat :=
  match remaining o s with
  | [] => 1
  | m :: ms => cyclesNow s m + (ms.map (microCycles p)).sum

theorem cyclesNow_pos (s : State) (m : MicroOp) : 0 < cyclesNow s m := by
  cases m <;> simp [cyclesNow]

theorem cyclesLeft_pos (p : Params) (o : Op) (s : State) : 0 < cyclesLeft p o s := by
  unfold cyclesLeft
  split
  · exact Nat.one_pos
  · next m ms _ => have := cyclesNow_pos s m; omega

theorem cyclesLeft_cons {p : Params} {o : Op} {s : State} {m : MicroOp} {ms : List MicroOp}
    (h : remaining o s = m :: ms) : cyclesLeft p o s = cyclesNow s m + (ms.map (microCycles p)).sum := by
  simp [cyclesLeft, h]

/-- A cycle of a busy block: the circuit's edge with the environment's answer, which is used up where the block samples. -/
theorem tick_busy {p : Params} {s : State} {o : Op} (hb : s.opr = .busy o) :
    tick p s = .next (microEdge p (nextDraw s) o (pulseOver (agentsMove s))) := by
  have h : (agentsMove s).opr = .busy o := by
    simp only [agentsMove, hb]; split <;> simp [hb]
  simp [tick, clockEdge, closedInputs, h]

/-- The list at `USTEP`. -/
theorem remaining_cons {o : Op} {s : State} {m : MicroOp} {ms : List MicroOp} (h : remaining o s = m :: ms) :
    (microOps o s.argr)[s.ustep.toNat]? = some m ∧ s.ustep.toNat < (microOps o s.argr).length ∧
    ms = (microOps o s.argr).drop (s.ustep.toNat + 1) := by
  unfold remaining at h
  have hlt : s.ustep.toNat < (microOps o s.argr).length := by
    by_contra hge
    rw [List.drop_eq_nil_of_le (by omega)] at h
    exact absurd h (by simp)
  rw [List.drop_eq_getElem_cons hlt] at h
  injection h with h1 h2
  exact ⟨by rw [List.getElem?_eq_getElem hlt, h1], hlt, h2.symm⟩

theorem remaining_nil {o : Op} {s : State} (h : remaining o s = []) :
    (microOps o s.argr)[s.ustep.toNat]? = none := by
  unfold remaining at h
  simpa using h

/-- The environment's move commutes with the micro-operation it answers. -/
theorem edge_unpaced (m : MicroOp) (s : State) :
    unpaced (microStep (nextDraw s) m (pulseOver (if m = .get then takeDraw s else s))) =
      unpaced (envStep m (microStep (nextDraw s) m s)) := by
  cases m with
  | dir p d => cases p <;> rfl
  | set p v => cases p <;> rfl
  | cfgOut => rfl
  | get => rfl
  | delay d => rfl

/-- ONE CYCLE OF A BUSY BLOCK: with one cycle left it completes, at the end `finish` gives; with more it stays busy with one
cycle less, on the way to the same end. -/
theorem tick_busy_cases {p : Params} {s : State} {o : Op} (hb : s.opr = .busy o) :
    (cyclesLeft p o s = 1 ∧ tick p s = .next (finish o s)) ∨
    (1 < cyclesLeft p o s ∧ ∃ t, tick p s = .next t ∧ t.opr = .busy o ∧ t.rspValid = false ∧
      cyclesLeft p o t + 1 = cyclesLeft p o s ∧ finish o t = finish o s) := by
  rw [tick_busy hb]
  cases hr : remaining o s with
  | nil =>
    have hn := remaining_nil hr
    refine .inl ⟨by simp [cyclesLeft, hr], ?_⟩
    have ha : agentsMove s = s := by simp [agentsMove, hb, hn]
    have : (microOps o (pulseOver s).argr)[(pulseOver s).ustep.toNat]? = none := hn
    simp only [ha, microEdge, this, finish, hr, runMicro_nil]
    rw [complete_unpaced (s := pulseOver s) (t := s) rfl]
  | cons m ms =>
    obtain ⟨hm, hlt, hms⟩ := remaining_cons hr
    have hleft : cyclesLeft p o s = cyclesNow s m + (ms.map (microCycles p)).sum := cyclesLeft_cons hr
    have ha : agentsMove s = if m = .get then takeDraw s else s := by
      simp only [agentsMove, hb, hm, Option.some.injEq]
    generalize hu : pulseOver (agentsMove s) = u
    have hargr : u.argr = s.argr := by rw [← hu, ha]; split <;> rfl
    have hust : u.ustep = s.ustep := by rw [← hu, ha]; split <;> rfl
    have hdly : u.dly = s.dly := by rw [← hu, ha]; split <;> rfl
    have hopr : u.opr = .busy o := by rw [← hu, ha]; split <;> exact hb
    have hrv : u.rspValid = false := by rw [← hu]; rfl
    have hcount : stillCounting m u = true ↔ ∃ d, m = .delay d ∧ 1 < s.dly := by
      cases m <;> simp [stillCounting, hdly]
    simp only [microEdge, hargr, hust, hm]
    by_cases hc : stillCounting m u = true
    · obtain ⟨d, rfl, hd⟩ := hcount.1 hc
      have hus : u = pulseOver s := by rw [← hu, ha]; simp
      rw [if_pos hc]
      refine .inr ⟨by rw [hleft]; simp [cyclesNow]; omega, _, rfl, hopr, hrv, ?_, ?_⟩
      · have : remaining o (countDown u) = .delay d :: ms := by rw [hus]; exact hr
        rw [hleft, cyclesLeft_cons this]
        simp only [cyclesNow, countDown, hdly]
        omega
      · have h1 : remaining o (countDown u) = remaining o s := by rw [hus]; rfl
        unfold finish
        rw [h1]
        exact complete_unpaced (runMicro_unpaced _ (by rw [hus]; rfl))
    · rw [if_neg hc]
      have hnow : cyclesNow s m = 1 := by
        cases m with
        | delay d =>
          have : ¬ 1 < s.dly := fun h => hc (hcount.2 ⟨d, rfl, h⟩)
          simp [cyclesNow]; omega
        | _ => rfl
      have hstep : unpaced (microStep (nextDraw s) m u) = unpaced (envStep m (microStep (nextDraw s) m s)) := by
        rw [← hu, ha]; exact edge_unpaced m s
      have hust' : (microStep (nextDraw s) m u).ustep.toNat = s.ustep.toNat + 1 := by
        have : (microStep (nextDraw s) m u).ustep = u.ustep + 1#6 := by
          have := microStep_ustep (nextDraw s) m u
          cases m <;> exact this
        rw [this, hust]
        exact ustep_succ hlt
      have hfin : finish o s = complete o (runMicro ms (envStep m (microStep (nextDraw s) m s))) := by
        simp [finish, hr]
      unfold afterMicro
      rw [hust']
      by_cases hl : (microOps o s.argr).length ≤ s.ustep.toNat + 1
      · have hnil : ms = [] := by rw [hms]; exact List.drop_eq_nil_of_le hl
        rw [if_pos hl]
        refine .inl ⟨by rw [hleft, hnow, hnil]; rfl, ?_⟩
        rw [hfin, hnil, complete_unpaced hstep]; rfl
      · rw [if_neg hl]
        set v := microStep (nextDraw s) m u with hv
        have hvargr : v.argr = s.argr := by rw [← hargr, hv]; cases m <;> simp [microStep]
        have hvopr : v.opr = .busy o := by rw [← hopr, hv]; cases m <;> simp [microStep]
        have hvrv : v.rspValid = false := by rw [← hrv, hv]; cases m <;> simp [microStep]
        have hrem : remaining o (loadDelay p (microOps o s.argr) v) = ms := by
          show (microOps o v.argr).drop v.ustep.toNat = ms
          rw [hvargr, hust', hms]
        have hlt' : s.ustep.toNat + 1 < (microOps o s.argr).length := by omega
        have hcons : ms = (microOps o s.argr)[s.ustep.toNat + 1] :: (microOps o s.argr).drop (s.ustep.toNat + 2) := by
          rw [hms, List.drop_eq_getElem_cons hlt']
        have hnow' : cyclesNow (loadDelay p (microOps o s.argr) v) (microOps o s.argr)[s.ustep.toNat + 1] =
            microCycles p (microOps o s.argr)[s.ustep.toNat + 1] := by
          have hd : (loadDelay p (microOps o s.argr) v).dly =
              delayLoad p (some (microOps o s.argr)[s.ustep.toNat + 1]) := by
            simp only [loadDelay, hust', List.getElem?_eq_getElem hlt']
          cases hx : (microOps o s.argr)[s.ustep.toNat + 1] with
          | delay d =>
            rw [hx] at hd
            have : 0 < p.cycles d := cycles_pos p d
            simp only [cyclesNow, microCycles, hd, delayLoad]
            omega
          | _ => rfl
        refine .inr ⟨?_, _, rfl, hvopr, hvrv, ?_, ?_⟩
        · rw [hleft, hnow, hcons]
          have : 0 < microCycles p (microOps o s.argr)[s.ustep.toNat + 1] := by
            rw [← hnow']; exact cyclesNow_pos _ _
          simp only [List.map_cons, List.sum_cons]
          omega
        · rw [hleft, hnow, cyclesLeft_cons (hrem.trans hcons), hnow', hcons]
          simp only [List.map_cons, List.sum_cons]
          omega
        · rw [hfin]
          unfold finish
          rw [hrem]
          exact complete_unpaced (runMicro_unpaced _ hstep)

/-- The cycle in which an idle block accepts the host's word (30_encoding.md R57). -/
theorem tick_accept {p : Params} {s : State} {w : CmdWord} {ws : List CmdWord} {i : Instr} (hi : s.opr = .idle)
    (hc : s.cmds = w :: ws) (hd : decode w = .ok i) (hp : precondition i.op s = none) :
    tick p s = .next (accept i.op (argOf i) (takeCmd s)) := by
  have hp' : precondition i.op (takeCmd s) = none :=
    (precondition_pins i.op (takeCmd s) s ⟨rfl, rfl, rfl, rfl⟩).trans hp
  simp [tick, clockEdge, closedInputs, agentsMove, hi, hc, commandEdge, hd, acceptEdge, hp', acceptEdge_load]

/-- An operation just accepted has R152's `N` cycles to go. -/
theorem cyclesLeft_accept (p : Params) (i : Instr) (s : State) :
    cyclesLeft p i.op (accept i.op (argOf i) s) = cyclesOf p i := by
  have hr : remaining i.op (accept i.op (argOf i) s) = microOps i.op (argOf i) := by simp [remaining]
  cases hm : microOps i.op (argOf i) with
  | nil =>
    cases i <;>
      simp [microOps, Instr.op, claimOps, sendBitOps, readBitOps, releaseOps, sendByteOps] at hm
  | cons m ms =>
    rw [cyclesLeft_cons (hr.trans hm), cyclesOf, hm]
    have : cyclesNow (accept i.op (argOf i) s) m = microCycles p m := by
      cases i <;>
        simp [microOps, Instr.op, claimOps, sendBitOps, readBitOps, releaseOps, sendByteOps, bitsOf, bitOrder] at hm <;>
        rw [← hm.1] <;> rfl
    simp [this]

/-- A busy block reaches its end in exactly `cyclesLeft` cycles, and is busy until then. -/
theorem ticks_busy {p : Params} {o : Op} (n : Nat) {s : State} (hb : s.opr = .busy o) (hn : cyclesLeft p o s = n) :
    ticks p n s = .next (finish o s) ∧
    ∀ k, 1 ≤ k → k < n → ∃ t, ticks p k s = .next t ∧ t.opr = .busy o ∧ t.rspValid = false := by
  induction n generalizing s with
  | zero => have := cyclesLeft_pos p o s; omega
  | succ n ih =>
    rcases tick_busy_cases (p := p) hb with ⟨h1, ht⟩ | ⟨h1, t, ht, hto, htr, hl, hf⟩
    · have : n = 0 := by omega
      subst this
      exact ⟨by simp [ticks, ht], fun k _ _ => by omega⟩
    · obtain ⟨e, hk⟩ := ih hto (by omega)
      refine ⟨by simp only [ticks, ht]; rw [e, hf], fun k h2 h3 => ?_⟩
      cases k with
      | zero => omega
      | succ k =>
        simp only [ticks, ht]
        by_cases hz : k = 0
        · subst hz; exact ⟨t, rfl, hto, htr⟩
        · exact hk k (by omega) (by omega)

/-! ### Edges with arbitrary inputs -/

/-- With the list of what remains in hand, the cycles of the first are its full length where `DLY` was just loaded. -/
theorem cyclesNow_loaded (p : Params) (m : MicroOp) (s : State) (h : s.dly = delayLoad p (some m)) :
    cyclesNow s m = microCycles p m := by
  cases m with
  | delay d =>
    have := cycles_pos p d
    simp only [cyclesNow, microCycles, h, delayLoad]
    omega
  | _ => rfl

/-- A micro-operation leaves the sequencer's name, its operand and the pulse. -/
theorem microStep_opr (v : Bit) (m : MicroOp) (s : State) : (microStep v m s).opr = s.opr := by
  cases m <;> simp [microStep]

theorem microStep_argr (v : Bit) (m : MicroOp) (s : State) : (microStep v m s).argr = s.argr := by
  cases m <;> simp [microStep]

theorem microStep_rspValid (v : Bit) (m : MicroOp) (s : State) : (microStep v m s).rspValid = s.rspValid := by
  cases m <;> simp [microStep]

/-- ONE EDGE OF A BUSY BLOCK, whatever the other inputs: with one cycle left it completes, with more it is busy with one less. -/
theorem busyEdge_cases {p : Params} {i : PortIn} {s : State} {o : Op} (hr : i.rst = false) (hb : s.opr = .busy o) :
    ∃ t, clockEdge p i s = .next t ∧
      ((cyclesLeft p o s = 1 ∧ t.opr = .idle ∧ t.rspValid = true) ∨
       (1 < cyclesLeft p o s ∧ t.opr = .busy o ∧ t.rspValid = false ∧ cyclesLeft p o t + 1 = cyclesLeft p o s)) := by
  have hce : clockEdge p i s = .next (microEdge p i.extSda o (pulseOver s)) := by simp [clockEdge, hr, hb]
  refine ⟨_, hce, ?_⟩
  rcases microEdge_cases p i.extSda o (pulseOver s) with ⟨hl, e⟩ | ⟨m, hm, ⟨hc, e⟩ | ⟨hc, hl, e⟩ | ⟨hc, hl, hu, e⟩⟩ <;>
    rw [e] <;> simp only [pulseOver_argr, pulseOver_ustep] at *
  · have hn : remaining o s = [] := List.drop_eq_nil_of_le hl
    exact .inl ⟨by simp [cyclesLeft, hn], (complete_fields _ _).1, (complete_fields _ _).2.2.2.1⟩
  all_goals
    obtain ⟨hlt, hx⟩ := List.getElem?_eq_some_iff.1 hm
    have hrem : remaining o s = m :: (microOps o s.argr).drop (s.ustep.toNat + 1) := by
      rw [remaining, List.drop_eq_getElem_cons hlt, hx]
  · cases m with
    | delay d =>
      have hd : 1 < s.dly := of_decide_eq_true hc
      have h' : remaining o (countDown (pulseOver s)) = .delay d :: (microOps o s.argr).drop (s.ustep.toNat + 1) := hrem
      refine .inr ⟨?_, hb, rfl, ?_⟩
      · rw [cyclesLeft_cons hrem]; simp only [cyclesNow]; omega
      · rw [cyclesLeft_cons hrem, cyclesLeft_cons h']
        simp only [cyclesNow, countDown, pulseOver_dly]
        omega
    | _ => exact absurd hc (by simp [stillCounting])
  all_goals
    have hnow : cyclesNow s m = 1 := by
      cases m with
      | delay d =>
        have : ¬ 1 < s.dly := of_decide_eq_false hc
        simp only [cyclesNow]
        omega
      | _ => rfl
  · refine .inl ⟨?_, (complete_fields _ _).1, (complete_fields _ _).2.2.2.1⟩
    rw [cyclesLeft_cons hrem, hnow, List.drop_eq_nil_of_le (by omega)]
    rfl
  · have ho : (loadDelay p (microOps o s.argr) (microStep i.extSda m (pulseOver s))).opr = .busy o := by
      show (microStep i.extSda m (pulseOver s)).opr = _
      rw [microStep_opr]; exact hb
    have hv : (loadDelay p (microOps o s.argr) (microStep i.extSda m (pulseOver s))).rspValid = false := by
      show (microStep i.extSda m (pulseOver s)).rspValid = _
      rw [microStep_rspValid]; rfl
    have h' : remaining o (loadDelay p (microOps o s.argr) (microStep i.extSda m (pulseOver s))) =
        (microOps o s.argr)[s.ustep.toNat + 1] :: (microOps o s.argr).drop (s.ustep.toNat + 1 + 1) := by
      show (microOps o (microStep i.extSda m (pulseOver s)).argr).drop (microStep i.extSda m (pulseOver s)).ustep.toNat = _
      rw [microStep_argr, hu, pulseOver_argr, List.drop_eq_getElem_cons hl]
    have hload := cyclesNow_loaded p (microOps o s.argr)[s.ustep.toNat + 1]
      (loadDelay p (microOps o s.argr) (microStep i.extSda m (pulseOver s)))
      (by simp only [loadDelay, hu, List.getElem?_eq_getElem hl])
    have hpos := cyclesNow_pos (loadDelay p (microOps o s.argr) (microStep i.extSda m (pulseOver s)))
      (microOps o s.argr)[s.ustep.toNat + 1]
    rw [cyclesLeft_cons hrem, cyclesLeft_cons h', hnow, List.drop_eq_getElem_cons hl, List.map_cons, List.sum_cons]
    exact .inr ⟨by omega, ho, hv, by omega⟩

/-- Over any inputs without reset a busy block pulses at the end of its last cycle and not before. -/
theorem edges_busy {p : Params} {o : Op} (n : Nat) (s : State) (hb : s.opr = .busy o) (hv : s.rspValid = false) (hn : cyclesLeft p o s = n)
   (is : List PortIn) (hi : ∀ i' ∈ is, i'.rst = false) (hl : is.length ≤ n) :
   ∃ u, edges p is s = .next u ∧ (u.rspValid = true ↔ is.length = n) ∧ (cmdReady u = true ↔ is.length = n) := by
  induction is generalizing s n with
  | nil =>
    have := cyclesLeft_pos p o s
    refine ⟨s, rfl, ?_, ?_⟩
    · rw [hv]; simp; omega
    · simp [cmdReady, hb]; omega
  | cons i is ih =>
    obtain ⟨t, e, ⟨h1, h2, h3⟩ | ⟨h1, h2, h3, h4⟩⟩ := busyEdge_cases (p := p) (hi i (by simp)) hb
    · have : is = [] := by apply List.eq_nil_of_length_eq_zero; simp at hl; omega
      subst this
      refine ⟨t, by simp [edges, e], ?_, ?_⟩
      · rw [h3]; simp; omega
      · simp [cmdReady, h2]; omega
    · obtain ⟨u, f, g1, g2⟩ := ih (n - 1) t h2 h3 (by omega) (fun i' h => hi i' (by simp [h])) (by simp at hl; omega)
      refine ⟨u, by simp [edges, e, f], ?_, ?_⟩
      · rw [g1]; simp; omega
      · rw [g2]; simp; omega

end Sys2Proof.Machine
end

