-- ==== Sys2Proof/Laws/HostLayer.lean ====
section
/-! SUPPORT. Short-circuiting sequences of host operations (42_host_command_layer.md R91) compose as byte lists do. -/

namespace Sys2Proof.Machine

theorem hostThen_assoc (a : HostOutcome) (b c : State → HostOutcome) :
    hostThen (hostThen a b) c = hostThen a (fun s => hostThen (b s) c) := by
  cases a with
  | next p =>
    obtain ⟨t, r⟩ := p
    cases r <;> rfl
  | fault f => rfl
  | refused r => rfl

theorem hostThen_ok (a : HostOutcome) : hostThen a (fun s => .next (s, .ok)) = a := by
  cases a with
  | next p =>
    obtain ⟨t, r⟩ := p
    cases r <;> rfl
  | fault f => rfl
  | refused r => rfl

theorem hostSendBytes_append (bs cs : List Byte) (s : State) :
    hostSendBytes (bs ++ cs) s = hostThen (hostSendBytes bs s) (hostSendBytes cs) := by
  induction bs generalizing s with
  | nil => rfl
  | cons b bs ih =>
    have e : hostSendBytes (bs ++ cs) = fun s => hostThen (hostSendBytes bs s) (hostSendBytes cs) := funext ih
    rw [List.cons_append, hostSendBytes, e, hostSendBytes, hostThen_assoc]

theorem hostSendBytes_one (b : Byte) (s : State) : hostSendBytes [b] s = hostSendByte b s := hostThen_ok _

/-- Two bytes, the second only after an acknowledged first (42_host_command_layer.md R93, R94). -/
theorem hostSendBytes_two (b c : Byte) (s : State) :
    hostSendBytes [b, c] s = hostThen (hostSendByte b s) (hostSendByte c) := by
  have e : hostSendBytes [c] = hostSendByte c := funext (hostSendBytes_one c)
  rw [hostSendBytes, e]

theorem hostThen_sendBytes (bs cs : List Byte) (s : State) :
    hostThen (hostSendBytes bs s) (hostSendBytes cs) = hostSendBytes (bs ++ cs) s :=
  (hostSendBytes_append bs cs s).symm

theorem sendCommand_eq (c : Byte) (s : State) : sendCommand c s = hostSendBytes [0x80#8, c] s :=
  (hostSendBytes_two _ _ _).symm

theorem sendData_eq (d : Byte) (s : State) : sendData d s = hostSendBytes [0xC0#8, d] s :=
  (hostSendBytes_two _ _ _).symm

theorem sendDoubleCommand_eq (c d : Byte) (s : State) :
    sendDoubleCommand c d s = hostSendBytes [0x80#8, c, 0x80#8, d] s := by
  have e : sendCommand d = hostSendBytes [0x80#8, d] := funext (sendCommand_eq d)
  rw [sendDoubleCommand, sendCommand_eq, e, hostThen_sendBytes]
  rfl

theorem sendZeros_eq (n : Nat) (s : State) :
    sendZeros n s = hostSendBytes (List.replicate n [0xC0#8, 0x00#8]).flatten s := by
  induction n generalizing s with
  | zero => rfl
  | succ n ih =>
    have e : sendZeros n = hostSendBytes (List.replicate n [0xC0#8, 0x00#8]).flatten := funext ih
    rw [sendZeros, e, sendData_eq, hostThen_sendBytes]
    rfl

/-- The host, idle block in hand, issues an instruction: its execution (30_encoding.md R57). -/
theorem issue_idle {i : Instr} {s : State} (hi : s.opr = .idle) (hd : decode (encode i) = .ok i) : issue i s = exec i s := by
  have hw : waitReady s = s := by unfold waitReady; rw [hi]
  cases s with
  | mk _ _ _ _ _ _ opr _ _ _ _ _ _ _ _ =>
    obtain rfl : opr = .idle := hi
    simp only [issue, hw, step, present, hd, takeCmd, List.tail_cons]

end Sys2Proof.Machine
end

