-- ==== Sys2Proof/Laws/Lines.lean ====
section
/-! SUPPORT. What a clock pulse adds to the line events and the pulses, and the moments of the operations on the lines. -/

namespace Sys2Proof.Machine

theorem statesAfter_cons (m : MicroOp) (ms : List MicroOp) (s : State) :
    statesAfter (m :: ms) s =
      envStep m (microStep (nextDraw s) m s) :: statesAfter ms (envStep m (microStep (nextDraw s) m s)) := rfl

@[simp] theorem statesAfter_length (ms : List MicroOp) (s : State) : (statesAfter ms s).length = ms.length := by
  induction ms generalizing s with
  | nil => rfl
  | cons m ms ih => simp [statesAfter, ih]

theorem statesAfter_append (ms ns : List MicroOp) (s : State) :
    statesAfter (ms ++ ns) s = statesAfter ms s ++ statesAfter ns (runMicro ms s) := by
  induction ms generalizing s with
  | nil => rfl
  | cons m ms ih => simp only [List.cons_append, statesAfter, ih, runMicro]

theorem wave_append (e : Env) (ms ns : List MicroOp) (s : State) :
    wave e (ms ++ ns) s = wave e ms s ++ wave e ns (runMicro ms s) := by
  simp only [wave, statesAfter_append, List.map_append]

theorem seen_cons (es : List Env) (ts : Timeline) (s : State) (ss : List State) :
    seen (es :: ts) (s :: ss) = es.map (fun e => levels e s) ++ seen ts ss := rfl

/-- The moments of one state whose levels are known but for the environment's data level. -/
theorem moments_eq {s : State} {f : Env → Bit} {c : Bit} (hs : ∀ e, levels e s = (f e, c)) (es : List Env) :
    es.map (fun e => levels e s) = (es.map f).map fun b => (b, c) := by
  rw [List.map_map]
  exact List.map_congr_left fun e _ => hs e

/-! ### Counting events over a clock pulse -/

/-- Moments with the clock low, then high, then low again, and the data line's levels in the three. -/
def pulseMoments (before high behind : List Bit) : List (Bit × Bit) :=
  (before.map fun b => (b, 0#1)) ++ ((high.map fun b => (b, 1#1)) ++ behind.map fun b => (b, 0#1))

/-- What an event must not do to be counted pulse by pulse: it does not happen while the clock is low, and a rise or a fall of the
clock counts `u` or `v` whatever the data line does. All four events of R37 are such. -/
structure ByPulse (r : Bit × Bit → Bit × Bit → Bool) (u v : Nat) : Prop where
  low : ∀ a b : Bit × Bit, a.2 = 0#1 → b.2 = 0#1 → r a b = false
  up : ∀ a b : Bit × Bit, a.2 = 0#1 → b.2 = 1#1 → (if r a b then 1 else 0) = u
  down : ∀ a b : Bit × Bit, a.2 = 1#1 → b.2 = 0#1 → (if r a b then 1 else 0) = v

theorem byPulse_isStart : ByPulse isStart 0 0 := by constructor <;> decide
theorem byPulse_isStop : ByPulse isStop 0 0 := by constructor <;> decide
theorem byPulse_isRise : ByPulse isRise 1 0 := by constructor <;> decide
theorem byPulse_isFall : ByPulse isFall 0 1 := by constructor <;> decide

section
variable {r : Bit × Bit → Bit × Bit → Bool} {u v : Nat}

/-- After a moment with the clock low it does not matter where the data line was. -/
theorem ByPulse.after_low (hr : ByPulse r u v) {a a' : Bit × Bit} (ha : a.2 = 0#1) (ha' : a'.2 = 0#1)
    (ls : List (Bit × Bit)) : countFrom r a ls = countFrom r a' ls := by
  cases ls with
  | nil => rfl
  | cons b ls =>
    have hb : b.2 = 0#1 ∨ b.2 = 1#1 := by generalize b.2 = c; revert c; decide
    rcases hb with hb | hb
    · simp only [countFrom, hr.low a b ha hb, hr.low a' b ha' hb]
    · simp only [countFrom, hr.up a b ha hb, hr.up a' b ha' hb]

/-- While the clock is low nothing happens. -/
theorem ByPulse.while_low (hr : ByPulse r u v) {a : Bit × Bit} (ha : a.2 = 0#1) (d : Bit) (bs : List Bit)
    (ls : List (Bit × Bit)) : countFrom r a ((bs.map fun b => (b, 0#1)) ++ ls) = countFrom r (d, 0#1) ls := by
  induction bs generalizing a with
  | nil => exact hr.after_low ha rfl ls
  | cons b bs ih =>
    simp only [List.map_cons, List.cons_append, countFrom, hr.low a (b, 0#1) ha rfl]
    rw [ih rfl]
    simp

/-- A sequence that starts with the clock low. -/
theorem ByPulse.start_low (hr : ByPulse r u v) (d : Bit) {bs : List Bit} (hb : bs ≠ []) (ls : List (Bit × Bit)) :
    countEvents r ((bs.map fun b => (b, 0#1)) ++ ls) = countFrom r (d, 0#1) ls := by
  cases bs with
  | nil => exact absurd rfl hb
  | cons b bs => exact hr.while_low (a := (b, 0#1)) rfl d bs ls

/-- From a moment with the clock high, through the rest of the high phase, to the fall and beyond. -/
theorem ByPulse.through_fall (hr : ByPulse r u v) (h d : Bit) (hs : List Bit) {bs : List Bit} (hb : bs ≠ [])
    (ls : List (Bit × Bit)) :
    countFrom r (h, 1#1) ((hs.map fun b => (b, 1#1)) ++ ((bs.map fun b => (b, 0#1)) ++ ls)) =
      countFrom r (h, 1#1) (hs.map fun b => (b, 1#1)) + v + countFrom r (d, 0#1) ls := by
  induction hs generalizing h with
  | nil =>
    cases bs with
    | nil => exact absurd rfl hb
    | cons b bs =>
      simp only [List.map_nil, List.nil_append, List.map_cons, List.cons_append, countFrom,
        hr.down (h, 1#1) (b, 0#1) rfl rfl]
      rw [hr.while_low (a := (b, 0#1)) rfl d]
      omega
  | cons c hs ih =>
    simp only [List.map_cons, List.cons_append, countFrom]
    rw [ih c]
    omega

/-- WHAT A CLOCK PULSE COUNTS: its rise, what the data line does in its high phase, its fall. -/
theorem ByPulse.pulse (hr : ByPulse r u v) {a : Bit × Bit} (ha : a.2 = 0#1) (d : Bit) (before : List Bit)
    {high behind : List Bit} (hh : high ≠ []) (hb : behind ≠ []) (ls : List (Bit × Bit)) :
    countFrom r a (pulseMoments before high behind ++ ls) =
      u + countEvents r (high.map fun b => (b, 1#1)) + v + countFrom r (d, 0#1) ls := by
  rw [pulseMoments, List.append_assoc, hr.while_low ha d, List.append_assoc]
  cases high with
  | nil => exact absurd rfl hh
  | cons c hs =>
    simp only [List.map_cons, List.cons_append, countFrom, countEvents, hr.up (d, 0#1) (c, 1#1) rfl rfl]
    rw [hr.through_fall c d hs hb]
    omega

end

/-- A level that holds makes no event. -/
theorem countEvents_const {r : Bit × Bit → Bit × Bit → Bool} (hr : ∀ b, r b b = false) {b : Bit × Bit}
    {ls : List (Bit × Bit)} (h : ∀ x ∈ ls, x = b) : countEvents r ls = 0 := by
  have key : ∀ ls : List (Bit × Bit), (∀ x ∈ ls, x = b) → countFrom r b ls = 0 := by
    intro ls
    induction ls with
    | nil => intro _; rfl
    | cons c ls ih =>
      intro h
      obtain rfl := h c List.mem_cons_self
      simp [countFrom, hr, ih fun x hx => h x (List.mem_cons_of_mem _ hx)]
  cases ls with
  | nil => rfl
  | cons c ls =>
    obtain rfl := h c List.mem_cons_self
    exact key ls fun x hx => h x (List.mem_cons_of_mem _ hx)

/-- The high phase itself holds no rise and no fall. -/
theorem countEvents_high {r : Bit × Bit → Bit × Bit → Bool} (hr : ∀ a b : Bit × Bit, a.2 = 1#1 → b.2 = 1#1 → r a b = false)
    (hs : List Bit) : countEvents r (hs.map fun b => (b, 1#1)) = 0 := by
  have key : ∀ (hs : List Bit) (d : Bit), countFrom r (d, 1#1) (hs.map fun b => (b, 1#1)) = 0 := by
    intro hs
    induction hs with
    | nil => intro _; rfl
    | cons b bs ih => intro d; simp [countFrom, hr (d, 1#1) (b, 1#1) rfl rfl, ih]
  cases hs with
  | nil => rfl
  | cons b bs => exact key bs b

/-- The moments of one state in which no level changes. -/
theorem moments_const {es : List Env} (h : es ≠ []) {s : State} {b : Bit × Bit} (hs : ∀ e ∈ es, levels e s = b) :
    ∃ n, es.map (fun e => levels e s) = List.replicate (n + 1) b := by
  have hn : es.length - 1 + 1 = es.length := by
    have := List.length_pos_of_ne_nil h
    omega
  refine ⟨es.length - 1, ?_⟩
  rw [hn, List.eq_replicate_iff]
  refine ⟨List.length_map _, fun c hc => ?_⟩
  obtain ⟨e, he, rfl⟩ := List.mem_map.1 hc
  exact hs e he

/-- Moments in which no level changes add the one move into them. -/
theorem countFrom_const {r : Bit × Bit → Bit × Bit → Bool} (hr : ∀ b, r b b = false) (a b : Bit × Bit) (n : Nat)
    (ls : List (Bit × Bit)) :
    countFrom r a (List.replicate (n + 1) b ++ ls) = (if r a b then 1 else 0) + countFrom r b ls := by
  have stay : ∀ k, countFrom r b (List.replicate k b ++ ls) = countFrom r b ls := by
    intro k
    induction k with
    | zero => rfl
    | succ k ih => simp [List.replicate_succ, countFrom, hr, ih]
  simp [List.replicate_succ, countFrom, stay]

/-! ### Pulses -/

/-- Pulses are told by the clock: the data line's level in the moment before does not matter. -/
theorem pulsesFrom_clock (high : Option (List Bit)) {a a' : Bit × Bit} (h : a.2 = a'.2) (ls : List (Bit × Bit)) :
    pulsesFrom high a ls = pulsesFrom high a' ls := by
  cases ls with
  | nil => rfl
  | cons b ls =>
    have e : isRise a b = isRise a' b := by simp [isRise, h]
    have f : isFall a b = isFall a' b := by simp [isFall, h]
    simp only [pulsesFrom, e, f]

/-- While the clock is low no pulse is open. -/
theorem pulsesFrom_low {a : Bit × Bit} (ha : a.2 = 0#1) (d : Bit) (bs : List Bit) (ls : List (Bit × Bit)) :
    pulsesFrom none a ((bs.map fun b => (b, 0#1)) ++ ls) = pulsesFrom none (d, 0#1) ls := by
  induction bs generalizing a with
  | nil => exact pulsesFrom_clock none ha ls
  | cons b bs ih =>
    rw [← ih (a := (b, 0#1)) rfl]
    simp [pulsesFrom, isRise, isFall, ha]

/-- A sequence that starts with the clock low. -/
theorem pulses_low (d : Bit) {bs : List Bit} (hb : bs ≠ []) (ls : List (Bit × Bit)) :
    pulses ((bs.map fun b => (b, 0#1)) ++ ls) = pulsesFrom none (d, 0#1) ls := by
  cases bs with
  | nil => exact absurd rfl hb
  | cons b bs => exact pulsesFrom_low (a := (b, 0#1)) rfl d bs ls

/-- A high phase goes on. -/
theorem pulsesFrom_high (hs : List Bit) (a : Bit × Bit) (ha : a.2 = 1#1) (bs : List Bit) (ls : List (Bit × Bit)) :
    pulsesFrom (some hs) a (bs.map (fun b => (b, 1#1)) ++ ls) = pulsesFrom (some (hs ++ bs)) a ls := by
  induction bs generalizing hs with
  | nil => simp
  | cons b bs ih =>
    have e : pulsesFrom (some hs) a (((b :: bs).map fun b => (b, 1#1)) ++ ls) =
        pulsesFrom (some (hs ++ [b])) (b, 1#1) ((bs.map fun b => (b, 1#1)) ++ ls) := by
      simp [pulsesFrom, isRise, isFall, ha]
    rw [e, pulsesFrom_clock _ (a' := a) ha.symm, ih (hs ++ [b])]
    simp

/-- Without a fall there is no pulse. -/
theorem pulsesFrom_no_fall (ls : List (Bit × Bit)) (high : Option (List Bit)) (a : Bit × Bit) (h : countFrom isFall a ls = 0) :
    pulsesFrom high a ls = [] := by
  induction ls generalizing high a with
  | nil => rfl
  | cons b ls ih =>
    simp only [countFrom] at h
    have hf : isFall a b = false := by
      cases hx : isFall a b with
      | false => rfl
      | true => simp [hx] at h
    have q := fun o => ih o b (by omega)
    cases high <;> simp [pulsesFrom, hf, q]

/-- Without a rise there is no pulse. -/
theorem pulsesFrom_no_rise (ls : List (Bit × Bit)) (a : Bit × Bit) (h : countFrom isRise a ls = 0) :
    pulsesFrom none a ls = [] := by
  induction ls generalizing a with
  | nil => rfl
  | cons b ls ih =>
    simp only [countFrom] at h
    have hr : isRise a b = false := by
      cases hx : isRise a b with
      | false => rfl
      | true => simp [hx] at h
    have q := ih b (by omega)
    simp [pulsesFrom, hr, q]

/-- THE PULSE OF A RISE AND ITS LATER FALL: the data line's levels in between. -/
theorem pulsesFrom_pulse {a : Bit × Bit} (ha : a.2 = 0#1) (d : Bit) (before : List Bit) {high behind : List Bit}
    (hh : high ≠ []) (hb : behind ≠ []) (ls : List (Bit × Bit)) :
    pulsesFrom none a (pulseMoments before high behind ++ ls) = high :: pulsesFrom none (d, 0#1) ls := by
  rw [pulseMoments, List.append_assoc, pulsesFrom_low ha d, List.append_assoc]
  cases high with
  | nil => exact absurd rfl hh
  | cons c hs =>
    have e : pulsesFrom none (d, 0#1) (((c :: hs).map fun b => (b, 1#1)) ++ ((behind.map fun b => (b, 0#1)) ++ ls)) =
        pulsesFrom (some [c]) (c, 1#1) ((hs.map fun b => (b, 1#1)) ++ ((behind.map fun b => (b, 0#1)) ++ ls)) := by
      simp [pulsesFrom, isRise]
    rw [e, pulsesFrom_high [c] (c, 1#1) rfl]
    cases behind with
    | nil => exact absurd rfl hb
    | cons b bs =>
      rw [← pulsesFrom_low (a := (b, 0#1)) rfl d bs ls]
      simp [pulsesFrom, isRise, isFall]

/-- Where the data line holds a level through the one pulse, that is the one bit a slave may take. -/
theorem mayTake_cons {hs : List Bit} {b : Bit} (h0 : hs ≠ []) (h : ∀ x ∈ hs, x = b) (ps : List (List Bit))
    (bits : List Bit) : mayTake (hs :: ps) bits ↔ ∃ rest, bits = b :: rest ∧ mayTake ps rest := by
  obtain ⟨x, hx⟩ := List.exists_mem_of_ne_nil hs h0
  obtain rfl := h x hx
  constructor
  · intro q
    cases q with
    | cons q1 q2 => exact ⟨_, by rw [h _ q1], q2⟩
  · rintro ⟨rest, rfl, q⟩
    exact .cons hx q

/-! ### The levels after each step of an operation, whatever the environment's level -/

theorem claimOps_levels (s : State) :
    ∃ s1 s2 s3 s4 s5, statesAfter claimOps s = [s1, s2, s3, s4, s5] ∧ (∀ e, levels e s1 = (s.sdaOut, s.sclOut)) ∧
      (∀ e, levels e s2 = (0#1, s.sclOut)) ∧ (∀ e, levels e s3 = (0#1, s.sclOut)) ∧ (∀ e, levels e s4 = (0#1, 0#1)) ∧
      ∀ e, levels e s5 = (0#1, 0#1) :=
  ⟨_, _, _, _, _, rfl, fun _ => rfl, fun _ => rfl, fun _ => rfl, fun _ => rfl, fun _ => rfl⟩

theorem sendBitOps_levels (level : Bit) {s : State} (h : Claimed s) :
    ∃ s1 s2 s3 s4, statesAfter (sendBitOps level) s = [s1, s2, s3, s4] ∧ (∀ e, levels e s1 = (level, s.sclOut)) ∧
      (∀ e, levels e s2 = (level, 1#1)) ∧ (∀ e, levels e s3 = (level, 1#1)) ∧ ∀ e, levels e s4 = (level, 0#1) := by
  obtain ⟨h1, h2⟩ := h
  refine ⟨_, _, _, _, rfl, ?_, ?_, ?_, ?_⟩ <;> intro e <;>
    simp [levels, line, lineLevel, dirOf, latchOf, microStep, envStep, pinSet, advance, emit, delayDone, h1, h2]

theorem readBitOps_levels {s : State} (h : s.sclDir = .out) :
    ∃ s1 s2 s3 s4 s5 s6 s7, statesAfter readBitOps s = [s1, s2, s3, s4, s5, s6, s7] ∧
      (∀ e, levels e s1 = (e.sda, s.sclOut)) ∧ (∀ e, levels e s2 = (e.sda, 1#1)) ∧ (∀ e, levels e s3 = (e.sda, 1#1)) ∧
      (∀ e, levels e s4 = (e.sda, 1#1)) ∧ (∀ e, levels e s5 = (e.sda, 1#1)) ∧ (∀ e, levels e s6 = (e.sda, 0#1)) ∧
      ∀ e, levels e s7 = (s.sdaOut, 0#1) := by
  refine ⟨_, _, _, _, _, _, _, rfl, ?_, ?_, ?_, ?_, ?_, ?_, ?_⟩ <;> intro e <;>
    simp [levels, line, lineLevel, dirOf, latchOf, microStep, envStep, pinSet, pinDir, advance, emit, delayDone, setSample,
      takeDraw, Env.level, h]

theorem releaseOps_levels {s : State} (h : Claimed s) :
    ∃ s1 s2 s3 s4 s5, statesAfter releaseOps s = [s1, s2, s3, s4, s5] ∧ (∀ e, levels e s1 = (s.sdaOut, 1#1)) ∧
      (∀ e, levels e s2 = (s.sdaOut, e.scl)) ∧ (∀ e, levels e s3 = (s.sdaOut, e.scl)) ∧
      (∀ e, levels e s4 = (1#1, e.scl)) ∧ ∀ e, levels e s5 = (e.sda, e.scl) := by
  obtain ⟨h1, h2⟩ := h
  refine ⟨_, _, _, _, _, rfl, ?_, ?_, ?_, ?_, ?_⟩ <;> intro e <;>
    simp [levels, line, lineLevel, dirOf, latchOf, microStep, envStep, pinSet, pinDir, advance, emit, delayDone, Env.level, h1,
      h2]

/-! ### The moments of SENDBIT and READBIT -/

/-- The moments of SENDBIT, whatever the environment does, are those of one pulse carrying the level. -/
theorem seen_sendBitOps (level : Bit) {s : State} (h : Claimed s) (hc : s.sclOut = 0#1) (g1 g2 g3 g4 : List Env)
    (ts : Timeline) (ss : List State) :
    seen (g1 :: g2 :: g3 :: g4 :: ts) (statesAfter (sendBitOps level) s ++ ss) =
      pulseMoments (g1.map fun _ => level) ((g2 ++ g3).map fun _ => level) (g4.map fun _ => level) ++ seen ts ss := by
  obtain ⟨s1, s2, s3, s4, e, k1, k2, k3, k4⟩ := sendBitOps_levels level h
  rw [hc] at k1
  rw [e]
  simp only [List.cons_append, List.nil_append, seen_cons, moments_eq k1, moments_eq k2, moments_eq k3, moments_eq k4,
    pulseMoments, List.map_append, List.append_assoc]

/-- The moments of READBIT are those of one pulse with the environment's levels. -/
theorem seen_readBitOps {s : State} (h : s.sclDir = .out) (hc : s.sclOut = 0#1) (g1 g2 g3 g4 g5 g6 g7 : List Env)
    (ts : Timeline) (ss : List State) :
    seen (g1 :: g2 :: g3 :: g4 :: g5 :: g6 :: g7 :: ts) (statesAfter readBitOps s ++ ss) =
      pulseMoments (g1.map Env.sda) ((g2 ++ (g3 ++ (g4 ++ g5))).map Env.sda)
        (g6.map Env.sda ++ g7.map fun _ => s.sdaOut) ++ seen ts ss := by
  obtain ⟨s1, s2, s3, s4, s5, s6, s7, e, k1, k2, k3, k4, k5, k6, k7⟩ := readBitOps_levels h
  rw [hc] at k1
  rw [e]
  simp only [List.cons_append, List.nil_append, seen_cons, moments_eq k1, moments_eq k2, moments_eq k3, moments_eq k4,
    moments_eq k5, moments_eq k6, moments_eq k7, pulseMoments, List.map_append, List.append_assoc]

end Sys2Proof.Machine
end

