-- ==== Sys2Proof/Laws/PerInstr.lean ====
section
/-! SUPPORT. A statement about every instruction, one lemma per constructor: an instruction's word is a legal word
(30_encoding.md R46, R51). -/

namespace Sys2Proof.Laws.EncodeLegal

/-- The word of an instruction is legal, by R51's own sentence. -/
def Statement (i : Instr) : Prop := legalWord (encode i) = true

theorem claim : Statement .claim := by unfold Statement; decide

theorem sendBit (level : Bit) : Statement (.sendBit level) := by unfold Statement; revert level; decide

theorem readBit : Statement .readBit := by unfold Statement; decide

theorem release : Statement .release := by unfold Statement; decide

theorem sendByte (byte : Byte) : Statement (.sendByte byte) := by unfold Statement; revert byte; decide +kernel

end Sys2Proof.Laws.EncodeLegal
end

