-- ==== Sys2Proof/Laws/Safety.lean ====
section
/-! SUPPORT. The pin shapes of 10_state.md R14 at the end of an operation, and the events of a list. -/

namespace Sys2Proof.Machine

theorem pinInv_idle {t : State} (h : t.opr = .idle) : PinInv t ↔ IdleShape .released t ∨ IdleShape .claimed t := by
  unfold PinInv
  rw [h]

theorem pinInv_busy {t : State} {o : Op} (h : t.opr = .busy o) : PinInv t ↔ MidShape o t := by
  unfold PinInv
  rw [h]

/-- The whole list of an operation, run from its precondition, ends in a shape of R14 (40_bit_transport.md R73; 41_byte_framer.md
R87). -/
theorem shape_of_whole_list {o : Op} {b : Byte} {s t : State} (hp : precondition o s = none)
    (h : SamePins t (runMicro (microOps o b) s)) : IdleShape .released t ∨ IdleShape .claimed t := by
  obtain ⟨h1, h2, h3, h4⟩ := h
  cases o with
  | claim =>
    rw [microOps, runMicro_claimOps] at *
    exact .inr ⟨⟨h1, h2⟩, h4⟩
  | sendBit =>
    obtain ⟨⟨a, b⟩, _⟩ := needsClaimed_none.1 hp
    rw [microOps, runMicro_sendBitOps] at *
    exact .inr ⟨⟨h1.trans a, h2.trans b⟩, h4⟩
  | readBit =>
    obtain ⟨⟨_, b⟩, _⟩ := needsClaimed_none.1 hp
    rw [microOps, runMicro_readBitOps] at *
    exact .inr ⟨⟨h1, h2.trans b⟩, h4⟩
  | release =>
    rw [microOps, runMicro_releaseOps] at *
    exact .inl ⟨⟨h1, h2⟩, h3, h4⟩
  | sendByte =>
    obtain ⟨⟨_, b⟩, _⟩ := needsClaimed_none.1 hp
    rw [microOps, runMicro_sendByteOps] at *
    exact .inr ⟨⟨h1, h2.trans b⟩, h4⟩

theorem finish_shape {o : Op} {s : State} (hm : MidShape o s) :
    IdleShape .released (finish o s) ∨ IdleShape .claimed (finish o s) := by
  obtain ⟨s0, hp, h⟩ := hm
  apply shape_of_whole_list (b := s.argr) hp
  have c := complete_pins o (runMicro (remaining o s) s)
  have e := runMicro_pins (remaining o s) _ _ h
  rw [← runMicro_append, remaining, List.take_append_drop] at e
  exact ⟨c.1.trans e.1, c.2.1.trans e.2.1, c.2.2.1.trans e.2.2.1, c.2.2.2.trans e.2.2.2⟩

theorem lifeOf_shape {i : Instr} {s : State} (hp : precondition i.op s = none) :
    IdleShape .released (lifeOf i s) ∨ IdleShape .claimed (lifeOf i s) := by
  apply shape_of_whole_list (b := argOf i) hp
  have c := complete_pins i.op (runMicro (microOps i.op (argOf i)) (accept i.op (argOf i) s))
  have e := runMicro_pins (microOps i.op (argOf i)) (accept i.op (argOf i) s) s ⟨rfl, rfl, rfl, rfl⟩
  exact ⟨c.1.trans e.1, c.2.1.trans e.2.1, c.2.2.1.trans e.2.2.1, c.2.2.2.trans e.2.2.2⟩

/-- The events of a list with at most one sample, in terms of the bit it leaves in `sample` (00_scope.md R7). -/
theorem runMicro_events (ms : List MicroOp) (s : State) (h : ms.count .get ≤ 1) :
    (runMicro ms s).tr = s.tr ++ ms.map (eventOf (runMicro ms s).sample) ∧ (.get ∉ ms → (runMicro ms s).sample = s.sample) := by
  induction ms generalizing s with
  | nil => simp [runMicro]
  | cons m ms ih =>
    have h' : ms.count .get ≤ 1 := le_trans (List.count_le_count_cons) h
    obtain ⟨e, f⟩ := ih (envStep m (microStep (nextDraw s) m s)) h'
    by_cases hm : m = .get
    · subst hm
      have hn : MicroOp.get ∉ ms := by
        rw [List.count_cons_self] at h
        exact List.count_eq_zero.1 (by omega)
      refine ⟨?_, fun q => absurd (List.mem_cons_self) q⟩
      simp only [runMicro]
      rw [e, f hn]
      simp [envStep, microStep, eventOf]
    · have hs : (envStep m (microStep (nextDraw s) m s)).sample = s.sample ∧ ∀ v, (envStep m (microStep (nextDraw s) m s)).tr = s.tr ++ [eventOf v m] := by
        cases m with
        | get => exact absurd rfl hm
        | dir p d => cases p <;> exact ⟨rfl, fun _ => rfl⟩
        | set p d => cases p <;> exact ⟨rfl, fun _ => rfl⟩
        | _ => exact ⟨rfl, fun _ => rfl⟩
      refine ⟨?_, fun q => ?_⟩
      · simp only [runMicro]; rw [e, hs.2 (runMicro ms (envStep m (microStep (nextDraw s) m s))).sample]; simp
      · simp only [runMicro]; rw [f (fun g => q (List.mem_cons_of_mem _ g)), hs.1]

/-- No operation samples more than once (20_memory.md R36). -/
theorem microOps_count_get (o : Op) (b : Byte) : (microOps o b).count .get ≤ 1 := by
  cases o <;> simp [microOps, claimOps, sendBitOps, readBitOps, releaseOps, sendByteOps, bitsOf, bitOrder]

end Sys2Proof.Machine
end

