-- ==== Sys2Proof/Tests/Slice0.lean ====
section
/-! SUPPORT. Tests with expected values from 95_test_vectors.md and the encodings of 30_encoding.md, and a witness for the
hypotheses of every statement that has any. -/

namespace Sys2Proof.Machine.Tests

open Sys2Proof Sys2Proof.Machine

/-! ### States -/

/-- Just after CLAIM: the start state of V10, V14 and V30. -/
def claimed : State := { State.reset with sdaDir := .out, sclDir := .out, sdaOut := 0#1, sclOut := 0#1 }

/-- The start state of V12 and V18, the data latch at 1. -/
def claimedHigh : State := { claimed with sdaOut := 1#1, argr := 0x01#8 }

/-- A state in which the bus answers `v`. -/
def answered (v : Bit) : State := { claimed with draws := [v] }

/-- CLAIM in flight, waiting in its first delay. -/
def midClaim (d : Nat) : State :=
  { claimed with opr := .busy .claim, sclOut := 1#1, ustep := 2#6, dly := d }

/-- CLAIM in flight, just before the micro-operation that its first delay follows. -/
def beforeDelay : State :=
  { claimed with opr := .busy .claim, sdaOut := 1#1, sclOut := 1#1, ustep := 1#6 }

/-- READBIT in flight, just before its sample, with the bus answering 1. -/
def midRead : State :=
  { answered 1#1 with opr := .busy .readBit, sdaDir := .inp, sclOut := 1#1, ustep := 3#6 }

/-- `T_HALF = 1`. -/
def half1 : Params := ⟨1, by decide⟩

/-- Inputs of a quiet cycle. -/
def quiet : PortIn := ⟨false, false, 0#11, 1#1⟩

/-- Inputs of a cycle that presents a word. -/
def offer (w : CmdWord) : PortIn := ⟨false, true, w, 1#1⟩

/-- The state an outcome leaves, the start state where it stops. -/
def after (o : Host.Outcome State Fault Refusal) : State :=
  match o with
  | .next t => t
  | .fault _ => State.reset
  | .refused _ => State.reset

/-- The state tuple of 95_test_vectors.md. -/
def tuple (s : State) : Dir × Dir × Bit × Bit × Rsp × Byte := (s.sdaDir, s.sclDir, s.sdaOut, s.sclOut, s.rsp, s.argr)

/-! ### Legal words: an ill-formed word for each check of WellFormed -/

/-- V9b, V9e, V9f: an argument where there is no operand. -/
theorem test_ill_formed_no_operand :
    legalWord 0x101#11 = false ∧ legalWord 0x380#11 = false ∧ legalWord 0x401#11 = false ∧
    legalNoOperand 0x100#11 = true ∧ legalNoOperand 0x101#11 = false := by decide

/-- V9c, V9d: a level wider than one bit. -/
theorem test_ill_formed_level :
    legalWord 0x202#11 = false ∧ legalWord 0x203#11 = false ∧ legalLevel 0x201#11 = true ∧ legalLevel 0x202#11 = false := by
  decide

/-- V9, V9a, V9g, V9h: a reserved operation code; 110 differs from SENDBYTE's 101. -/
theorem test_ill_formed_op :
    legalWord 0x000#11 = false ∧ legalWord 0x0FF#11 = false ∧ legalWord 0x600#11 = false ∧ legalWord 0x7FF#11 = false ∧
    legalByte 0x5FF#11 = true ∧ legalByte 0x600#11 = false := by decide

/-! ### Words written out bit by bit (V1 to V9h) -/

theorem test_decode_claim : decode 0b00100000000#11 = .ok .claim ∧ encode .claim = 0b00100000000#11 := ⟨rfl, rfl⟩

theorem test_decode_sendbit :
    decode 0b01000000000#11 = .ok (.sendBit 0#1) ∧ decode 0b01000000001#11 = .ok (.sendBit 1#1) := ⟨rfl, rfl⟩

theorem test_decode_readbit : decode 0b01100000000#11 = .ok .readBit := rfl

theorem test_decode_release : decode 0b10000000000#11 = .ok .release := rfl

/-- V6 to V8, and the assembly example of section 2.1. -/
theorem test_decode_sendbyte :
    decode 0b10100000000#11 = .ok (.sendByte 0x00#8) ∧ decode 0b10101111000#11 = .ok (.sendByte 0x78#8) ∧
    decode 0b10111111111#11 = .ok (.sendByte 0xFF#8) ∧ encode (.sendByte 0xAE#8) = 0x5AE#11 := ⟨rfl, rfl, rfl, rfl⟩

theorem test_decode_illegal :
    decode 0x000#11 = .error .reservedOp ∧ decode 0x101#11 = .error (.argNotZero .claim) ∧
    decode 0x203#11 = .error .levelTooWide ∧ decode 0x7FF#11 = .error .reservedOp := ⟨rfl, rfl, rfl, rfl⟩

/-- The table's words as the host numbers them. -/
theorem test_table_words :
    decodeTableWord 16 0x100 = some .claim ∧ decodeTableWord 16 0x578 = some (.sendByte 0x78#8) ∧
    decodeTableWord 16 0x600 = none := ⟨rfl, rfl, rfl⟩

/-! ### Instructions, from the vectors -/

/-- V13. -/
theorem test_claim :
    tuple (after (exec .claim State.reset)) = (.out, .out, 0#1, 0#1, 0b000#3, 0x00#8) ∧
    (after (exec .claim State.reset)).tr =
      [.cfgOut, .set .sda 0#1, .dly .unit, .set .scl 0#1, .dly .unit, .rsp .claim 0b000#3] := by decide

/-- "Refused, not vectors": CLAIM from a Claimed state. -/
theorem test_claim_refused : exec .claim claimed = .refused .busNotReleased := rfl

/-- V15. -/
theorem test_sendbit_one :
    tuple (after (exec (.sendBit 1#1) claimed)) = (.out, .out, 1#1, 0#1, 0b000#3, 0x01#8) ∧
    (after (exec (.sendBit 1#1) claimed)).tr =
      [.set .sda 1#1, .set .scl 1#1, .dly .unit, .set .scl 0#1, .rsp .sendBit 0b000#3] := by decide

/-- V16: the response of the earlier READBIT is overwritten. -/
theorem test_sendbit_zero :
    tuple (after (exec (.sendBit 0#1) { claimedHigh with rsp := 0b001#3, argr := 0x00#8 })) =
      (.out, .out, 0#1, 0#1, 0b000#3, 0x00#8) := by decide

/-- V11. -/
theorem test_readbit_one :
    tuple (after (exec .readBit (answered 1#1))) = (.out, .out, 0#1, 0#1, 0b001#3, 0x00#8) ∧
    (after (exec .readBit (answered 1#1))).tr =
      [.dir .sda .inp, .set .scl 1#1, .dly .half, .get 1#1, .dly .half, .set .scl 0#1, .dir .sda .out,
       .rsp .readBit 0b001#3] := by decide

/-- V12: the latch keeps its 1 through the operation. -/
theorem test_readbit_turnaround :
    tuple (after (exec .readBit { claimedHigh with draws := [0#1] })) = (.out, .out, 1#1, 0#1, 0b000#3, 0x00#8) := by decide

/-- V18. -/
theorem test_release :
    tuple (after (exec .release claimedHigh)) = (.inp, .inp, 1#1, 1#1, 0b000#3, 0x00#8) ∧
    (after (exec .release claimedHigh)).tr =
      [.set .scl 1#1, .dir .scl .inp, .dly .unit, .set .sda 1#1, .dir .sda .inp, .rsp .release 0b000#3] := by decide

/-- "Refused, not vectors": RELEASE from the reset state. -/
theorem test_release_refused : exec .release State.reset = .refused (.busNotClaimed .release) := rfl

/-- V33 and V34: the witnesses of bit order. -/
theorem test_sendbyte_order :
    dataSets (after (exec (.sendByte 0x01#8) (answered 0#1))).tr = [0#1, 0#1, 0#1, 0#1, 0#1, 0#1, 0#1, 1#1] ∧
    dataSets (after (exec (.sendByte 0x80#8) (answered 0#1))).tr = [1#1, 0#1, 0#1, 0#1, 0#1, 0#1, 0#1, 0#1] := by decide

/-- V35, V36, V38: the acknowledged and the not acknowledged address byte, and a NACK with the latch at 1. -/
theorem test_sendbyte_response :
    tuple (after (exec (.sendByte 0x78#8) (answered 0#1))) = (.out, .out, 0#1, 0#1, 0b000#3, 0x78#8) ∧
    tuple (after (exec (.sendByte 0x78#8) (answered 1#1))) = (.out, .out, 0#1, 0#1, 0b011#3, 0x78#8) ∧
    tuple (after (exec (.sendByte 0xAF#8) (answered 1#1))) = (.out, .out, 1#1, 0#1, 0b011#3, 0xAF#8) :=
  ⟨by decide, by decide, by decide⟩

/-- V42's fourth command: an illegal word changes `RSP` alone, and `ARGR` keeps 0xFF. -/
theorem test_illegal_word :
    tuple (after (step { claimed with argr := 0xFF#8, cmds := [0x7FF#11] })) =
      (.out, .out, 0#1, 0#1, 0b100#3, 0xFF#8) := by decide

/-- A word of the table runs as the first instruction after reset. -/
theorem test_fetch_word :
    tuple (after (step (State.reset.withFetchWord 16 0x100))) = (.out, .out, 0#1, 0#1, 0b000#3, 0x00#8) := by decide

/-- Section 2.5, `T_HALF = 5`. -/
theorem test_cycle_counts :
    [Instr.claim, .sendBit 1#1, .readBit, .release, .sendByte 0x78#8].map (cyclesOf ⟨5, by decide⟩) = [23, 13, 15, 14, 119] := by
  decide

/-- V45, cycle 3: data driven low, clock driven high, the block busy. -/
theorem test_ports_in_claim :
    ports (after (ticks half1 3 { State.reset with cmds := [0x100#11] })) =
      ⟨false, false, 0b000#3, true, 0#1, true, 1#1⟩ := by decide

/-- V45, cycle 8: the response of CLAIM, ready for the next word. -/
theorem test_ports_after_claim :
    ports (after (ticks half1 8 { State.reset with cmds := [0x100#11] })) =
      ⟨true, true, 0b000#3, true, 0#1, true, 0#1⟩ := by decide

/-! ### Witnesses: for every statement with hypotheses, concrete values that meet them -/

/-- DecoderAcceptsExactlyLegalWords: an illegal word of each class. -/
theorem witness_illegal_words :
    legalWord 0x000#11 = false ∧ legalWord 0x6FF#11 = false ∧ legalWord 0x1FF#11 = false ∧ legalWord 0x301#11 = false ∧
    legalWord 0x2FF#11 = false := by decide

/-- OpcodeRowsSelectTheOperation and DecodeAndEncodeAgree: a row of the table, a word it selects, and what it decodes to. -/
theorem witness_opcode_row :
    (⟨.sendByte, 0x500#11, 0x700#11⟩ : OpcodeRow) ∈ opcodeRows ∧
    rowMatches ⟨.sendByte, 0x500#11, 0x700#11⟩ 0x5FF#11 = true ∧ decode 0x5FF#11 = .ok (.sendByte 0xFF#8) :=
  ⟨by decide, by decide, rfl⟩

/-- MicroOperationEffects and LineLevels: an input pin, and an output pin, of each kind. -/
theorem witness_pins :
    State.reset.sdaDir = .inp ∧ State.reset.sclDir = .inp ∧ claimed.sdaDir = .out ∧ claimed.sclDir = .out := by decide

/-- DelayCountsDown, first clause: two cycles of a delay are left, the boundary. -/
theorem witness_delay_counting :
    quiet.rst = false ∧ (midClaim 2).opr = .busy .claim ∧
    (microOps .claim (midClaim 2).argr)[(midClaim 2).ustep.toNat]? = some (.delay .unit) ∧ 1 < (midClaim 2).dly := by decide

/-- DelayCountsDown, second clause: the last cycle of a delay. -/
theorem witness_delay_ending :
    quiet.rst = false ∧ (midClaim 1).opr = .busy .claim ∧
    (microOps .claim (midClaim 1).argr)[(midClaim 1).ustep.toNat]? = some (.delay .unit) ∧ (midClaim 1).dly = 1 := by decide

/-- DelayCountsDown, third clause: the edge before a delay. -/
theorem witness_delay_loading :
    quiet.rst = false ∧ beforeDelay.opr = .busy .claim ∧
    (microOps .claim beforeDelay.argr)[beforeDelay.ustep.toNat + 1]? = some (.delay .unit) ∧
    clockEdge half1 quiet beforeDelay = .next (after (clockEdge half1 quiet beforeDelay)) ∧
    (after (clockEdge half1 quiet beforeDelay)).ustep = beforeDelay.ustep + 1#6 ∧
    (after (clockEdge half1 quiet beforeDelay)).dly = 2 := ⟨rfl, rfl, rfl, rfl, rfl, rfl⟩

/-- ResetInputOverridesEverything: reset in the middle of an operation. -/
theorem witness_reset : ({ quiet with rst := true } : PortIn).rst = true ∧ (midClaim 2).opr = .busy .claim := by decide

/-- ClaimEffect and PinStateBeforeAndAfter: both sides of CLAIM's precondition; a Released bus with a latch at 0 is the boundary. -/
theorem witness_claim_effect :
    (State.reset.opr = .idle ∧ State.reset.sdaDir = .inp ∧ State.reset.sclDir = .inp ∧ State.reset.sdaOut = 1#1 ∧
      State.reset.sclOut = 1#1) ∧
    claimed.opr = .idle ∧
    ¬(claimed.sdaDir = .inp ∧ claimed.sclDir = .inp ∧ claimed.sdaOut = 1#1 ∧ claimed.sclOut = 1#1) ∧
    exec .claim { State.reset with sdaOut := 0#1 } = .refused .latchNotHigh := ⟨by decide, by decide, by decide, rfl⟩

/-- SendBitEffect, ReadBitEffect, ReleaseEffect, SendByteEffect, BrokenPreconditionIsRefusedByName, PinStateBeforeAndAfter: both
sides of the precondition of the other four; a Claimed bus with the clock latch at 1 is the boundary. -/
theorem witness_claimed_effects :
    ((answered 1#1).opr = .idle ∧ (answered 1#1).sdaDir = .out ∧ (answered 1#1).sclDir = .out ∧
      (answered 1#1).sclOut = 0#1 ∧ 1#1 = nextDraw (answered 1#1)) ∧
    State.reset.opr = .idle ∧ ¬(State.reset.sdaDir = .out ∧ State.reset.sclDir = .out ∧ State.reset.sclOut = 0#1) ∧
    exec (.sendByte 0x00#8) { claimed with sclOut := 1#1 } = .refused (.clockNotLow .sendByte) :=
  ⟨by decide, by decide, by decide, rfl⟩

/-- InstructionFrame, EventsFollowTheList, OneSampleAtTheMidpoint, ResponseTable, NackExactlyWhenTheSampleIsOne: each instruction
runs from an idle state. -/
theorem witness_instructions_run :
    claimed.opr = .idle ∧ State.reset.opr = .idle ∧ (∃ t, exec .claim State.reset = .next t) ∧
    (∃ t, exec (.sendBit 1#1) claimed = .next t) ∧ (∃ t, exec .readBit (answered 0#1) = .next t) ∧
    (∃ t, exec .release claimed = .next t) ∧ ∃ t, exec (.sendByte 0x78#8) (answered 1#1) = .next t ∧ nackOf t.rsp = 1#1 :=
  ⟨rfl, rfl, ⟨_, rfl⟩, ⟨_, rfl⟩, ⟨_, rfl⟩, ⟨_, rfl⟩, _, rfl, rfl⟩

/-- SentBitsReconstructTheByte, SendByteEqualsNineBitCommands, NackChangesOnlyTheResponse. -/
theorem witness_sendbyte : claimed.opr = .idle ∧ Claimed claimed ∧ claimed.sclOut = 0#1 := by decide

/-- TraceOnlyGrows, StepKeepsThePinShape, ResponseStaysLegal: a step of a state in each phase that keeps the invariants. -/
theorem witness_steps :
    (PinInv claimed ∧ RspLegal claimed ∧ ∃ t, step { claimed with cmds := [0x201#11] } = .next t) ∧
    PinInv (midClaim 2) ∧ ∃ t, step (midClaim 2) = .next t :=
  ⟨⟨.inr (by decide), by decide, _, rfl⟩, ⟨State.reset, rfl, by decide⟩, _, rfl⟩

/-- ResponseTable, IllegalWordAnswersAndDoesNothingElse: an illegal word, presented to a step and at the port. -/
theorem witness_illegal_word :
    State.reset.opr = .idle ∧ decode 0x600#11 = .error .reservedOp ∧
    ({ State.reset with cmds := [0x600#11] } : State).cmds = 0x600#11 :: [] ∧
    (∃ t, step { State.reset with cmds := [0x600#11] } = .next t) ∧
    (offer 0x600#11).rst = false ∧ (offer 0x600#11).cmdValid = true ∧ (offer 0x600#11).cmd = 0x600#11 :=
  ⟨rfl, rfl, rfl, ⟨_, rfl⟩, rfl, rfl, rfl⟩

/-- BitOperationsRaiseNothing: a READBIT that samples 1. -/
theorem witness_bit_operation :
    (answered 1#1).opr = .idle ∧ Instr.readBit.op ≠ .sendByte ∧ precondition Instr.readBit.op (answered 1#1) = none := by decide

/-- ResponseStaysLegal, ClockEdgeKeepsThePinShape, SequencerStaysInsideItsList, OnePulsePerCompletion: an edge that completes
nothing and one that completes an operation. -/
theorem witness_edges :
    PinInv (midClaim 2) ∧ SeqInv half1 (midClaim 2) ∧ RspLegal (midClaim 2) ∧ quiet.rst = false ∧
    (∃ t, clockEdge half1 quiet (midClaim 2) = .next t ∧ t.rspValid = false) ∧
    ∃ t, clockEdge half1 quiet { midClaim 1 with sclOut := 0#1, ustep := 4#6 } = .next t ∧ t.rspValid = true :=
  ⟨⟨State.reset, rfl, by decide⟩, (by decide : 2 < 5 ∧ 2 ≤ 2 ∧ (0 < 2 → 0 < 2)), by decide, rfl, ⟨_, rfl, rfl⟩, _, rfl, rfl⟩

/-- OnePulsePerCompletion: the last cycle of CLAIM's last delay, an accepted legal word followed by inputs without reset, and an
accepted illegal one. -/
theorem witness_pulse :
    (let s : State := { midClaim 1 with sclOut := 0#1, ustep := 4#6 }
     s.opr = .busy .claim ∧ s.ustep.toNat + 1 = (microOps .claim s.argr).length ∧
       (microOps .claim s.argr)[s.ustep.toNat]? = some (.delay .unit) ∧ s.dly ≤ 1) ∧
    (∃ t, clockEdge half1 (offer 0x100#11) State.reset = .next t) ∧
    (∃ u, edges half1 (offer 0x100#11 :: List.replicate 7 quiet) State.reset = .next u ∧ u.rspValid = true) ∧
    (∃ u, edges half1 (offer 0x100#11 :: List.replicate 6 quiet) State.reset = .next u ∧ u.rspValid = false) ∧
    ∃ t, clockEdge half1 (offer 0x600#11) State.reset = .next t :=
  ⟨by decide, ⟨_, rfl⟩, ⟨_, rfl, rfl⟩, ⟨_, rfl, rfl⟩, _, rfl⟩

/-- StepRunsTheDecodedInstruction: a legal word first on the port, and a table word that decodes. -/
theorem witness_decoded :
    ({ claimed with cmds := [0x5AF#11, 0x400#11] } : State).opr = .idle ∧
    ({ claimed with cmds := [0x5AF#11, 0x400#11] } : State).cmds = 0x5AF#11 :: [0x400#11] ∧
    decode 0x5AF#11 = .ok (.sendByte 0xAF#8) ∧ decodeTableWord 16 0x5AF = some (.sendByte 0xAF#8) := ⟨rfl, rfl, rfl, rfl⟩

/-- StepFinishesTheOperationInFlight, CommandPortHandshake: a busy block with no sample to come, one with the data pin an input
and a sample to come, and one that has still to make it an input. -/
theorem witness_busy :
    ((midClaim 2).opr = .busy .claim ∧ .get ∉ remaining .claim (midClaim 2)) ∧
    (midRead.opr = .busy .readBit ∧ .get ∈ remaining .readBit midRead ∧ midRead.sdaDir = .inp) ∧
    .get ∈ remaining .readBit { midRead with ustep := 0#6, sdaDir := .out } ∧
    .dir .sda .inp ∈ remaining .readBit { midRead with ustep := 0#6, sdaDir := .out } := by decide

/-- A step from the middle of READBIT: the rest of V11's trace and its end state. -/
theorem test_finish_readbit :
    tuple (after (step midRead)) = (.out, .out, 0#1, 0#1, 0b001#3, 0x00#8) ∧
    (after (step midRead)).tr = [.get 1#1, .dly .half, .set .scl 0#1, .dir .sda .out, .rsp .readBit 0b001#3] := by decide

/-- IdleBlockHolds. -/
theorem witness_idle : State.reset.opr = .idle ∧ State.reset.cmds = [] := ⟨rfl, rfl⟩

/-- CommandPortHandshake: a legal word, an illegal word and no word at the port of an idle block. -/
theorem witness_port :
    State.reset.opr = .idle ∧ (offer 0x100#11).rst = false ∧ (offer 0x100#11).cmdValid = true ∧
    decode (offer 0x100#11).cmd = .ok .claim ∧ precondition Instr.claim.op State.reset = none ∧
    (∃ t, clockEdge half1 (offer 0x100#11) State.reset = .next t) ∧
    decode (offer 0x7FF#11).cmd = .error .reservedOp ∧ quiet.rst = false ∧ quiet.cmdValid = false :=
  ⟨rfl, rfl, rfl, rfl, rfl, ⟨_, rfl⟩, rfl, rfl, rfl⟩

/-- ProtocolSequencesRunAndOthersAreRefused: both phases, a sequence inside the language and two outside. -/
theorem witness_protocol :
    IdleShape .released State.reset ∧ IdleShape .claimed claimed ∧ State.reset.opr = .idle ∧
    inProtocol .released [.claim, .sendByte 0x78#8, .release, .claim] = true ∧
    inProtocol .released [.claim, .claim] = false ∧ inProtocol .claimed [.release, .release] = false := by decide

/-- CycleCounts: a legal and an illegal word, and a cycle in the range. -/
theorem witness_cycles :
    ({ State.reset with cmds := [0x100#11] } : State).opr = .idle ∧
    ({ State.reset with cmds := [0x100#11] } : State).cmds = 0x100#11 :: [] ∧ decode 0x100#11 = .ok .claim ∧
    precondition Instr.claim.op { State.reset with cmds := [0x100#11] } = none ∧ 7 ≤ cyclesOf half1 .claim ∧
    decode 0x101#11 = .error (.argNotZero .claim) := ⟨rfl, rfl, rfl, rfl, by decide, rfl⟩

/-- LengthsInTimingUnits: the documented initDisplay's number of bytes. -/
theorem witness_bytes : (List.replicate 2211 0x00#8).length = 2211 := List.length_replicate

/-- V17 and V18: RELEASE makes a STOP from a latch of 0 and none from a latch of 1. -/
theorem test_release_stop :
    countIn isStop (steady pulledUp releaseOps) releaseOps claimed = 1 ∧
    countIn isStop (steady pulledUp releaseOps) releaseOps claimedHigh = 0 := by decide

/-- V13: the START of CLAIM. -/
theorem test_claim_start : countIn isStart (steady pulledUp claimOps) claimOps State.reset = 1 := by decide

/-- V34's wire: the single 1 is in the first pulse; the ninth carries the slave's 0. -/
theorem test_sendbyte_pulses :
    mayTake (pulsesIn (steady ⟨0#1, 1#1⟩ (sendByteOps 0x80#8)) (sendByteOps 0x80#8) claimed)
      [1#1, 0#1, 0#1, 0#1, 0#1, 0#1, 0#1, 0#1, 0#1] := by unfold mayTake; decide

/-- A slave that lets the data line go in the middle of READBIT's high phase. -/
def letsGo : Timeline :=
  [[⟨0#1, 1#1⟩], [⟨0#1, 1#1⟩], [⟨0#1, 1#1⟩], [⟨0#1, 1#1⟩, ⟨1#1, 1#1⟩], [pulledUp], [pulledUp], [pulledUp], [pulledUp]]

/-- R37: the data line's rise under a high clock is a STOP, whoever makes it. -/
theorem test_slave_makes_stop :
    countIn isStop letsGo readBitOps claimed = 1 ∧ countIn isStart letsGo readBitOps claimed = 0 := by decide

/-- The statements about lines: both shapes, the data latch at each level, and timelines that fit: the pull-ups', a slave's that
holds a level, and one that moves. -/
theorem witness_lines :
    (IdleShape .released State.reset ∧ IdleShape .claimed claimed ∧ claimed.sdaOut = 0#1 ∧
      IdleShape .claimed claimedHigh ∧ claimedHigh.sdaOut = 1#1 ∧ claimed.opr = .idle) ∧
    fits (steady pulledUp claimOps) claimOps ∧ (∀ e ∈ (steady pulledUp claimOps).headD [], e = pulledUp) ∧
    fits (steady pulledUp releaseOps) releaseOps ∧ (∀ es ∈ (steady pulledUp releaseOps).drop 2, ∀ e ∈ es, e = pulledUp) ∧
    fits (steady ⟨0#1, 1#1⟩ (sendBitOps 1#1)) (sendBitOps 1#1) ∧
    fits letsGo readBitOps ∧ ∀ b ∈ sdaDuring (steady pulledUp (sendByteOps 0xA8#8)) 34 4, b = 1#1 := by
  unfold fits
  decide

/-- The timeline of SENDBYTE. -/
theorem witness_lines_byte : fits (steady pulledUp (sendByteOps 0xA8#8)) (sendByteOps 0xA8#8) := by
  unfold fits
  decide

/-- EnvironmentMovesUndrivenLines: the four combinations of directions. -/
theorem witness_undriven :
    Released State.reset ∧ Claimed claimed ∧ midRead.sdaDir = .inp ∧ midRead.sclDir = .out ∧
    ({ claimed with sclDir := .inp } : State).sdaDir = .out := by decide

/-- HostShortCircuits: a control byte that is not acknowledged, and one that is; the same for a whole command. -/
theorem witness_short_circuit :
    (∃ t, hostSendByte 0x80#8 (answered 1#1) = .next (t, .nack)) ∧
    (∃ t, hostSendByte 0x80#8 (answered 0#1) = .next (t, .ok)) ∧
    (∃ t, hostSendByte 0xC0#8 (answered 1#1) = .next (t, .nack)) ∧
    (∃ t, hostSendByte 0xC0#8 (answered 0#1) = .next (t, .ok)) ∧
    (∃ t, sendCommand 0xA8#8 { claimed with draws := [0#1, 1#1] } = .next (t, .nack)) ∧
    ∃ t, sendCommand 0xA8#8 { claimed with draws := [0#1, 0#1] } = .next (t, .ok) :=
  ⟨⟨_, rfl⟩, ⟨_, rfl⟩, ⟨_, rfl⟩, ⟨_, rfl⟩, ⟨_, rfl⟩, _, rfl⟩

/-- AddressCommandBytes: the last page and column, and the first outside (rule R96's `0xB7`, `0x18`; column 131 is 8 and 3). -/
theorem witness_address :
    pageCmd 7 = some 0xB7#8 ∧ pageCmd 8 = none ∧ columnCmds 131 = some (0x03#8, 0x18#8) ∧ columnCmds 132 = none := by decide

/-- HostStopsAtTheFirstNack: the second of three bytes is not acknowledged; all three are. -/
theorem witness_first_nack :
    claimed.opr = .idle ∧ IdleShape .claimed claimed ∧ 1 < [0x78#8, 0x80#8, 0xAE#8].length ∧
    ({ claimed with draws := [0#1, 1#1] } : State).draws = List.replicate 1 0#1 ++ 1#1 :: [] ∧
    3 = [0x78#8, 0x80#8, 0xAE#8].length ∧
    ({ claimed with draws := [0#1, 0#1, 0#1] } : State).draws = List.replicate 3 0#1 ++ [] := by decide

/-- InitDisplayIsItsByteStream: the claim succeeds from reset. -/
theorem witness_init : ∃ t, issue .claim State.reset = .next t := ⟨_, rfl⟩

/-- ToggleCommitsAfterSuccess: a send that succeeds and one that does not. -/
theorem witness_toggle :
    (∃ g, toggleDisplay ⟨{ claimed with draws := [0#1, 0#1] }, false⟩ = .next (g, .ok) ∧ g.displayOn = true) ∧
    ∃ g, toggleDisplay ⟨{ claimed with draws := [0#1, 1#1] }, false⟩ = .next (g, .nack) ∧ g.displayOn = false :=
  ⟨⟨_, rfl, rfl⟩, _, rfl, rfl⟩

end Sys2Proof.Machine.Tests
end

section
/-! The Released bus, the ready block, and the state after reset (10_state.md R13, R17, R23). -/

namespace Sys2Proof.Machine

theorem dirOf_of_released {s : State} (h : Released s) (p : Pin) : dirOf p s = .inp := by
  cases p with
  | sda => exact h.1
  | scl => exact h.2

/-- An undriven line stands at the environment's level (20_memory.md R31). -/
theorem line_of_dirOf_inp {p : Pin} {s : State} (h : dirOf p s = .inp) (e : Env) : line e p s = e.level p := by
  simp [line, lineLevel, h]

theorem line_of_released {s : State} (h : Released s) (e : Env) (p : Pin) : line e p s = e.level p :=
  line_of_dirOf_inp (dirOf_of_released h p) e

@[simp] theorem pulledUp_level (p : Pin) : pulledUp.level p = 1#1 := by
  cases p <;> rfl

/-- Under the pull-ups alone, both lines of a Released bus are high. -/
theorem line_pulledUp_of_released {s : State} (h : Released s) (p : Pin) : line pulledUp p s = 1#1 := by
  rw [line_of_released h, pulledUp_level]

theorem cmdReady_eq_true_iff (s : State) : cmdReady s = true ↔ s.opr = .idle := by
  simp [cmdReady]

theorem released_reset : Released State.reset := ⟨rfl, rfl⟩

theorem opr_reset : State.reset.opr = .idle := rfl

/-- Settles O8: the registers and the host's flag are at the values `State.reset` and `HostState.start` write; the lines are high
because the bus is Released, and the block is ready because it is idle. -/
theorem resetStateIsAsStated : Obligations.ResetStateIsAsStated := by
  have lineHigh := line_pulledUp_of_released released_reset
  have ready := (cmdReady_eq_true_iff State.reset).mpr opr_reset
  exact ⟨rfl, rfl, rfl, rfl, rfl, rfl, opr_reset, rfl, rfl, rfl, released_reset, lineHigh .sda, lineHigh .scl, ready, rfl⟩

end Sys2Proof.Machine
end

section
/-! The level of a line (20_memory.md R31). -/

namespace Sys2Proof.Machine

/-- A driven line stands at its latch, whatever the environment does (20_memory.md R31). -/
theorem line_of_dirOf_out {p : Pin} {s : State} (h : dirOf p s = .out) (e : Env) : line e p s = latchOf p s := by
  simp [line, lineLevel, h]

/-- Settles O6: for each pin, the driven and the undriven case of `line`. -/
theorem lineLevels : Obligations.LineLevels := by
  intro e s
  have driven (p : Pin) (h : dirOf p s = .out) : line e p s = latchOf p s := line_of_dirOf_out h e
  have undriven (p : Pin) (h : dirOf p s = .inp) : line e p s = e.level p := line_of_dirOf_inp h e
  exact ⟨driven .sda, undriven .sda, driven .scl, undriven .scl⟩

end Sys2Proof.Machine
end

section
/-! The words by their two fields: the legal ones, R51's three illegal classes, and the counts (30_encoding.md R51). -/

namespace Sys2Proof

/-- R51's legal words, by `OP` and `ARG`. -/
def LegalFields (o : BitVec 3) (a : Byte) : Prop :=
  ((o = 0b001#3 ∨ o = 0b011#3 ∨ o = 0b100#3) ∧ a = 0x00#8) ∨ (o = 0b010#3 ∧ a.extractLsb' 1 7 = 0#7) ∨ o = 0b101#3

/-- R51's first illegal class: a reserved `OP`. -/
abbrev ReservedCode (w : CmdWord) : Prop := opField w ∈ [0b000#3, 0b110#3, 0b111#3]

/-- R51's second illegal class: an operation without operand, and `ARG` not zero. -/
abbrev ArgNotZero (w : CmdWord) : Prop := opField w ∈ [0b001#3, 0b011#3, 0b100#3] ∧ argField w ≠ 0x00#8

/-- R51's third illegal class: SENDBIT, and `ARG[7:1]` not zero. -/
abbrev LevelTooWide (w : CmdWord) : Prop := opField w = 0b010#3 ∧ (argField w).extractLsb' 1 7 ≠ 0#7

theorem opcode_cases (o : BitVec 3) : o = 0b000#3 ∨ o = 0b001#3 ∨ o = 0b010#3 ∨ o = 0b011#3 ∨ o = 0b100#3 ∨
    o = 0b101#3 ∨ o = 0b110#3 ∨ o = 0b111#3 := by
  revert o; decide

theorem decodeNoOperand_ok_iff (o : Op) (i : Instr) (a : Byte) :
    (∃ j, decodeNoOperand o i a = .ok j) ↔ a = 0x00#8 := by
  unfold decodeNoOperand
  split <;> simp [*]

theorem decodeSendBit_ok_iff (a : Byte) : (∃ j, decodeSendBit a = .ok j) ↔ a.extractLsb' 1 7 = 0#7 := by
  unfold decodeSendBit
  split <;> simp [*]

theorem decode_ok_iff (w : CmdWord) : (∃ i, decode w = .ok i) ↔ LegalFields (opField w) (argField w) := by
  unfold decode
  rcases opcode_cases (opField w) with h | h | h | h | h | h | h | h <;>
    simp [h, decodeNoOperand_ok_iff, decodeSendBit_ok_iff, LegalFields]

theorem legalWord_iff (w : CmdWord) : legalWord w = true ↔ LegalFields (opField w) (argField w) := by
  simp [legalWord, legalNoOperand, legalLevel, legalByte, opField, argField, LegalFields, or_assoc]

/-- A word is in one of the three illegal classes exactly when it is not legal. -/
theorem legalWord_false_iff (w : CmdWord) : legalWord w = false ↔ ReservedCode w ∨ ArgNotZero w ∨ LevelTooWide w := by
  rw [← Bool.not_eq_true, legalWord_iff]
  rcases opcode_cases (opField w) with h | h | h | h | h | h | h | h <;>
    simp [h, LegalFields, ReservedCode, ArgNotZero, LevelTooWide]

/-! ### Counting words -/

theorem opField_ofNat (n : Nat) : opField (BitVec.ofNat 11 n) = BitVec.ofNat 3 (n / 256) := by
  apply BitVec.eq_of_toNat_eq
  simp [opField, Nat.shiftRight_eq_div_pow]
  omega

theorem argField_ofNat (n : Nat) : argField (BitVec.ofNat 11 n) = BitVec.ofNat 8 (n % 256) := by
  apply BitVec.eq_of_toNat_eq
  simp [argField]

/-- Counting by quotient and remainder: a condition on each gives a product. -/
theorem countP_range_mul (m k : Nat) (hk : 0 < k) (q r : Nat → Bool) :
    (List.range (m * k)).countP (fun n => q (n / k) && r (n % k)) =
      (List.range m).countP q * (List.range k).countP r := by
  induction m with
  | zero => simp
  | succ m ih =>
    have block : (List.range k).countP ((fun n => q (n / k) && r (n % k)) ∘ (m * k + ·)) =
        (List.range k).countP (fun j => q m && r j) := by
      apply List.countP_congr
      intro j hj
      have hj : j < k := List.mem_range.mp hj
      have hdiv : (m * k + j) / k = m := by
        rw [Nat.mul_comm, Nat.mul_add_div hk, Nat.div_eq_of_lt hj, Nat.add_zero]
      have hmod : (m * k + j) % k = j := by
        rw [Nat.mul_comm, Nat.mul_add_mod, Nat.mod_eq_of_lt hj]
      simp [hdiv, hmod]
    rw [Nat.succ_mul, List.range_add, List.countP_append, ih, List.countP_map, block, List.range_succ,
      List.countP_append, Nat.add_mul]
    cases hq : q m <;> simp [hq]

/-- A class given by a condition on `OP` and one on `ARG` has as many words as there are pairs of a code and an operand that
meet them (R51's "3 × 255"). -/
theorem countP_words {P : CmdWord → Prop} [DecidablePred P] (q : BitVec 3 → Bool) (r : Byte → Bool) {m k : Nat}
    (hP : ∀ w, P w ↔ q (opField w) = true ∧ r (argField w) = true)
    (hq : (List.range 8).countP (fun o => q (BitVec.ofNat 3 o)) = m)
    (hr : (List.range 256).countP (fun a => r (BitVec.ofNat 8 a)) = k) :
    (List.range 2048).countP (fun n => decide (P (BitVec.ofNat 11 n))) = m * k := by
  have fields (n : Nat) : decide (P (BitVec.ofNat 11 n)) =
      (q (BitVec.ofNat 3 (n / 256)) && r (BitVec.ofNat 8 (n % 256))) := by
    rw [← opField_ofNat, ← argField_ofNat, Bool.eq_iff_iff, decide_eq_true_iff, hP, Bool.and_eq_true]
  simp only [fields, ← hq, ← hr]
  exact countP_range_mul 8 256 (by decide) (fun o => q (BitVec.ofNat 3 o)) (fun a => r (BitVec.ofNat 8 a))

theorem countP_or_of_disjoint {α : Type} {l : List α} {p q : α → Bool} (h : ∀ x, ¬(p x = true ∧ q x = true)) :
    l.countP (fun x => p x || q x) = l.countP p + l.countP q := by
  induction l with
  | nil => rfl
  | cons x l ih =>
    rw [List.countP_cons, List.countP_cons, List.countP_cons, ih]
    cases hp : p x with
    | false => simp [Nat.add_assoc]
    | true =>
      have hq : q x = false := by simpa [hp] using h x
      simp [hq, Nat.add_right_comm]

theorem countP_reservedCode :
    (List.range 2048).countP (fun n => decide (ReservedCode (BitVec.ofNat 11 n))) = 3 * 256 :=
  countP_words (fun o => decide (o ∈ [0b000#3, 0b110#3, 0b111#3])) (fun _ => true) (by simp) (by decide) (by simp)

theorem countP_argNotZero :
    (List.range 2048).countP (fun n => decide (ArgNotZero (BitVec.ofNat 11 n))) = 3 * 255 :=
  countP_words (fun o => decide (o ∈ [0b001#3, 0b011#3, 0b100#3])) (fun a => decide (a ≠ 0x00#8)) (by simp) (by decide)
    (by decide +kernel)

theorem countP_levelTooWide :
    (List.range 2048).countP (fun n => decide (LevelTooWide (BitVec.ofNat 11 n))) = 1 * 254 :=
  countP_words (fun o => decide (o = 0b010#3)) (fun a => decide (a.extractLsb' 1 7 ≠ 0#7)) (by simp) (by decide)
    (by decide +kernel)

/-- The three illegal classes are disjoint, so their counts add up. -/
theorem countP_illegal : (List.range 2048).countP (fun n => !legalWord (BitVec.ofNat 11 n)) =
    3 * 256 + (3 * 255 + 1 * 254) := by
  have classes (w : CmdWord) : (!legalWord w) =
      (decide (ReservedCode w) || (decide (ArgNotZero w) || decide (LevelTooWide w))) := by
    rw [Bool.eq_iff_iff, Bool.not_eq_true', legalWord_false_iff]
    simp only [Bool.or_eq_true, decide_eq_true_iff]
  have outer (w : CmdWord) : ¬(ReservedCode w ∧ (ArgNotZero w ∨ LevelTooWide w)) := by
    rcases opcode_cases (opField w) with h | h | h | h | h | h | h | h <;>
      simp [h, ReservedCode, ArgNotZero, LevelTooWide]
  have inner (w : CmdWord) : ¬(ArgNotZero w ∧ LevelTooWide w) := by
    rintro ⟨⟨h, -⟩, h', -⟩
    simp [h'] at h
  simp only [classes]
  rw [countP_or_of_disjoint, countP_or_of_disjoint, countP_reservedCode, countP_argNotZero, countP_levelTooWide]
  · intro n; simpa using inner (BitVec.ofNat 11 n)
  · intro n; simpa using outer (BitVec.ofNat 11 n)

theorem countP_eq_of_countP_not {α : Type} {l : List α} {p : α → Bool} {k m : Nat} (hl : l.length = k + m)
    (h : l.countP (fun x => !p x) = m) : l.countP p = k := by
  have total := l.length_eq_countP_add_countP p
  simp only [Bool.not_eq_true, Bool.decide_eq_false, h] at total
  omega

theorem countP_legal : (List.range 2048).countP (fun n => legalWord (BitVec.ofNat 11 n)) = 261 :=
  countP_eq_of_countP_not List.length_range countP_illegal

/-- Settles O1: decoder and `legalWord` are held to the same condition on the two fields, and each class is counted as codes times
operands. -/
theorem decoderAcceptsExactlyLegalWords : Obligations.DecoderAcceptsExactlyLegalWords := by
  have classOf (w : CmdWord) (h : legalWord w = false) := (legalWord_false_iff w).mp h
  simp only [ReservedCode, ArgNotZero, LevelTooWide, List.mem_cons, List.not_mem_nil, or_false] at classOf
  exact ⟨decode_ok_iff, fun w => (decode_ok_iff w).trans (legalWord_iff w).symm, classOf, countP_legal, countP_illegal,
    countP_reservedCode, countP_argNotZero, countP_levelTooWide⟩

end Sys2Proof
end

section
/-! An illegal word, and the responses (30_encoding.md R50, R52). -/

namespace Sys2Proof.Machine

/-- All that an illegal word does to the block (30_encoding.md R52). -/
theorem acceptIllegal_eq (s : State) :
    acceptIllegal s = { s with rsp := 0b100#3, rspValid := true, tr := s.tr ++ [.rspIllegal 0b100#3] } := rfl

theorem takeCmd_of_cons {s : State} {w : CmdWord} {ws : List CmdWord} (hc : s.cmds = w :: ws) :
    takeCmd s = { s with cmds := ws } := by
  rw [takeCmd, hc, List.tail_cons]

theorem step_of_illegal {s : State} {w : CmdWord} {ws : List CmdWord} {e : DecodeError} (hi : s.opr = .idle)
    (hc : s.cmds = w :: ws) (hd : decode w = .error e) : step s = .next (acceptIllegal { s with cmds := ws }) := by
  simp [step, hi, hc, hd, takeCmd_of_cons hc]

theorem clockEdge_of_illegal {p : Params} {i : PortIn} {s : State} {e : DecodeError} (hi : s.opr = .idle)
    (hr : i.rst = false) (hv : i.cmdValid = true) (hd : decode i.cmd = .error e) :
    clockEdge p i s = .next (acceptIllegal s) := by
  simp [clockEdge, commandEdge, hi, hr, hv, hd]

/-- Settles O27: the step and the clock edge both come to `acceptIllegal`, whose whole effect is `acceptIllegal_eq`. -/
theorem illegalWordAnswersAndDoesNothingElse : Obligations.IllegalWordAnswersAndDoesNothingElse := by
  intro s w ws e hi hd
  refine ⟨fun hc => ?_, fun p i hr hv hw => ?_, by decide⟩
  · rw [step_of_illegal hi hc hd, acceptIllegal_eq]
  · rw [clockEdge_of_illegal hi hr hv (hw ▸ hd), acceptIllegal_eq]

/-- A READBIT's response: the sampled bit alone (30_encoding.md R50). -/
theorem responseOf_readBit (v : Bit) : responseOf .readBit v = 0b00#2 ++ v := rfl

/-- Settles O23: an instruction's value is read off the state its life ends in, an illegal word's off `acceptIllegal`; the values
never produced are not among those of `responseOf_legal` and `responseOf_sendByte`. -/
theorem responseTable : Obligations.ResponseTable := by
  refine ⟨fun i s t hi h => ?_, fun s t w ws e hi hc hd h => ?_, fun o v => ?_, fun v => ?_⟩
  · obtain ⟨-, rfl⟩ := exec_next hi h
    cases i with
    | claim => rw [lifeOf_claim]
    | sendBit level => rw [lifeOf_sendBit]
    | readBit => rw [lifeOf_readBit, responseOf_readBit]
    | release => rw [lifeOf_release]
    | sendByte byte => rw [lifeOf_sendByte, responseOf_sendByte]
  · rw [step_of_illegal hi hc hd, acceptIllegal_eq] at h
    cases h
    rfl
  · rcases responseOf_legal o v with h | h | h <;> rw [h] <;> decide
  · rw [responseOf_sendByte]
    split <;> decide

end Sys2Proof.Machine
end

section
/-! The bit-level transport: the operations of a Claimed bus, where they sample, and what they answer (40_bit_transport.md R63 to
R70). -/

namespace Sys2Proof.Machine

/-! ### The precondition of a Claimed bus -/

theorem exec_of_claimed {i : Instr} (hc : i.op ≠ .claim) {s : State} (hi : s.opr = .idle)
    (h : s.sdaDir = .out ∧ s.sclDir = .out ∧ s.sclOut = 0#1) : exec i s = .next (lifeOf i s) :=
  exec_run hi ((precondition_claimed hc).mpr (and_assoc.mpr h))

theorem exec_refused_of_not_claimed {i : Instr} (hc : i.op ≠ .claim) {s : State} (hi : s.opr = .idle)
    (h : ¬(s.sdaDir = .out ∧ s.sclDir = .out ∧ s.sclOut = 0#1)) : ∃ r, exec i s = .refused r := by
  have broken : precondition i.op s ≠ none := fun hp => h (and_assoc.mp ((precondition_claimed hc).mp hp))
  obtain ⟨r, hr⟩ := Option.ne_none_iff_exists'.mp broken
  exact ⟨r, exec_refused hi hr⟩

/-! ### The effects -/

theorem encode_sendBit (level : Bit) : encode (.sendBit level) = 0x200#11 ||| level.setWidth 11 := by
  rcases bit_cases level with rfl | rfl <;> rfl

/-- Settles O11: on a Claimed bus with the clock low SENDBIT ends in the state `lifeOf_sendBit` gives. -/
theorem sendBitEffect : Obligations.SendBitEffect := by
  intro level
  have hc : (Instr.sendBit level).op ≠ .claim := by simp [Instr.op]
  refine ⟨encode_sendBit level, fun s hi => ⟨fun h => ?_, exec_refused_of_not_claimed hc hi⟩⟩
  exact ⟨_, exec_of_claimed hc hi h, by simp [lifeOf_sendBit, hi]⟩

/-- Settles O12: on a Claimed bus with the clock low READBIT ends in the state `lifeOf_readBit` gives, which differs from the
statement's only in writing again the data direction and the clock latch it found. -/
theorem readBitEffect : Obligations.ReadBitEffect := by
  refine ⟨rfl, fun s v hi hv => ⟨fun h => ?_, exec_refused_of_not_claimed (by decide) hi⟩⟩
  have ⟨hsda, _, hscl⟩ := h
  exact ⟨_, exec_of_claimed (by decide) hi h, by simp [lifeOf_readBit, responseOf, mkRsp, hi, hv, hsda, hscl]⟩

/-- Settles O13: on a Claimed bus with the clock low RELEASE ends in the state `lifeOf_release` gives. -/
theorem releaseEffect : Obligations.ReleaseEffect := by
  refine ⟨rfl, fun s hi => ⟨fun h => ⟨?_, rfl, rfl, rfl, rfl⟩, exec_refused_of_not_claimed (by decide) hi⟩⟩
  exact ⟨_, exec_of_claimed (by decide) hi h, by simp [lifeOf_release, State.reset, hi]⟩

/-! ### The sample -/

/-- R66 of the events an instruction adds to the trace, where the environment's answer is `v`: the number of samples, and the
half delays alone between the sample and the clock's rise and fall. -/
def SampledAtTheMidpoint (o : Op) (v : Bit) (es : List Event) : Prop :=
  es.countP isGet = (if o = .readBit ∨ o = .sendByte then 1 else 0) ∧
  (o = .readBit ∨ o = .sendByte →
    ∃ pre post, es = pre ++ [.set .scl 1#1, .dly .half, .get v, .dly .half, .set .scl 0#1] ++ post)

theorem sampledAtTheMidpoint_of_no_get {o : Op} {v : Bit} {es : List Event} (ho : ¬(o = .readBit ∨ o = .sendByte))
    (h : es.countP isGet = 0) : SampledAtTheMidpoint o v es :=
  ⟨by rw [h, if_neg ho], fun h' => absurd h' ho⟩

theorem sampledAtTheMidpoint_of_window {o : Op} {v : Bit} {pre post : List Event} (ho : o = .readBit ∨ o = .sendByte)
    (hpre : pre.countP isGet = 0) (hpost : post.countP isGet = 0) :
    SampledAtTheMidpoint o v (pre ++ [.set .scl 1#1, .dly .half, .get v, .dly .half, .set .scl 0#1] ++ post) := by
  refine ⟨?_, fun _ => ⟨pre, post, rfl⟩⟩
  rw [List.countP_append, List.countP_append, hpre, hpost, if_pos ho]
  rfl

/-- The two instructions that sample do so in READBIT's window; SENDBYTE's eight pulses before it hold no sample. -/
theorem lifeOf_tr_sampled (i : Instr) (s : State) :
    ∃ es, (lifeOf i s).tr = s.tr ++ es ∧ SampledAtTheMidpoint i.op (nextDraw s) es := by
  cases i with
  | claim => exact ⟨_, by rw [lifeOf_claim], sampledAtTheMidpoint_of_no_get (by decide) rfl⟩
  | sendBit level => exact ⟨_, by rw [lifeOf_sendBit], sampledAtTheMidpoint_of_no_get (by simp [Instr.op]) rfl⟩
  | release => exact ⟨_, by rw [lifeOf_release], sampledAtTheMidpoint_of_no_get (by decide) rfl⟩
  | readBit =>
    exact ⟨_, by rw [lifeOf_readBit]; rfl, sampledAtTheMidpoint_of_window (pre := [.dir .sda .inp])
      (post := [.dir .sda .out, .rsp .readBit (responseOf .readBit (nextDraw s))]) (.inl rfl) rfl rfl⟩
  | sendByte byte =>
    have pulses : ((bitOrder.flatMap fun i => [Event.set .sda (byte.extractLsb' i 1), .set .scl 1#1, .dly .unit,
        .set .scl 0#1]) ++ [Event.dir .sda .inp]).countP isGet = 0 := rfl
    exact ⟨_, by rw [lifeOf_sendByte]; simp, sampledAtTheMidpoint_of_window
      (post := [.dir .sda .out, .rsp .sendByte (responseOf .sendByte (nextDraw s))]) (.inr rfl) pulses rfl⟩

/-- Settles O19: a completed execution is `lifeOf`, whose added events are sampled as R66 says. -/
theorem oneSampleAtTheMidpoint : Obligations.OneSampleAtTheMidpoint := by
  refine ⟨Params.pos, fun i s t hi h => ?_⟩
  obtain ⟨-, rfl⟩ := exec_next hi h
  exact lifeOf_tr_sampled i s

/-! ### The response -/

/-- The response of an instruction is R50's value for the environment's answer. -/
theorem lifeOf_rsp (i : Instr) (s : State) : (lifeOf i s).rsp = responseOf i.op (nextDraw s) := by
  cases i with
  | claim => rw [lifeOf_claim]; rfl
  | sendBit level => rw [lifeOf_sendBit]; rfl
  | readBit => rw [lifeOf_readBit]; rfl
  | release => rw [lifeOf_release]; rfl
  | sendByte byte => rw [lifeOf_sendByte]; rfl

/-- A bit operation's response reports nothing, a READBIT's sampled 1 included (40_bit_transport.md R70). -/
theorem responseOf_bitOperation {o : Op} (ho : o ≠ .sendByte) (v : Bit) :
    illOf (responseOf o v) = 0#1 ∧ nackOf (responseOf o v) = 0#1 ∧ errorOf o v = none := by
  revert v
  cases o with
  | claim => decide
  | sendBit => decide
  | readBit => decide
  | release => decide
  | sendByte => exact absurd rfl ho

/-- Settles O24: where a bit operation runs it answers `responseOf`, whose flags are `responseOf_bitOperation`'s. -/
theorem bitOperationsRaiseNothing : Obligations.BitOperationsRaiseNothing := by
  intro i s hi ho hp
  exact ⟨_, exec_run hi hp, by rw [lifeOf_rsp]; exact responseOf_bitOperation ho (nextDraw s)⟩

end Sys2Proof.Machine
end

section
/-! The byte framer: SENDBYTE's word, its effect, and the bits it puts on the data latch (41_byte_framer.md R80 to
R82). -/

namespace Sys2Proof.Machine

/-! ### The word and the effect -/

theorem encode_sendByte (byte : Byte) : encode (.sendByte byte) = 0x500#11 ||| byte.setWidth 11 :=
  BitVec.append_def 0b101#3 byte

/-- Settles O14: the counts are read off the list, whose shape no byte changes, and on a Claimed bus with the clock low SENDBYTE
ends in the state `lifeOf_sendByte` gives, which differs from the statement's only in writing again the data direction and the
clock latch it found. -/
theorem sendByteEffect : Obligations.SendByteEffect := by
  intro byte
  have hc : (Instr.sendByte byte).op ≠ .claim := by simp [Instr.op]
  refine ⟨encode_sendByte byte, rfl, rfl, rfl, rfl, fun s a hi ha => ⟨fun h => ?_, exec_refused_of_not_claimed hc hi⟩⟩
  have ⟨hsda, _, hscl⟩ := h
  have hrsp : responseOf .sendByte a = (0#1 ++ a) ++ a := rfl
  refine ⟨_, exec_of_claimed hc hi h, ?_⟩
  rw [← responseOf_sendByte, ← hrsp]
  simp [lifeOf_sendByte, bitOrder, hi, ha, hsda, hscl]

/-! ### The bits sent -/

/-- What a SENDBYTE adds to the trace sets the data latch to the byte's bits alone, in the order of R82: READBIT's part does not
set it. -/
theorem lifeOf_sendByte_dataSets (byte : Byte) (s : State) :
    ∃ es, (lifeOf (.sendByte byte) s).tr = s.tr ++ es ∧ dataSets es = bitOrder.map fun i => byte.extractLsb' i 1 :=
  ⟨_, by rw [lifeOf_sendByte], rfl⟩

/-- The byte is the weighted sum of its bits (41_byte_framer.md R82). -/
theorem byte_eq_weighted_sum (byte : Byte) :
    byte.toNat = (byte.extractLsb' 7 1).toNat * 128 + (byte.extractLsb' 6 1).toNat * 64 +
      (byte.extractLsb' 5 1).toNat * 32 + (byte.extractLsb' 4 1).toNat * 16 + (byte.extractLsb' 3 1).toNat * 8 +
      (byte.extractLsb' 2 1).toNat * 4 + (byte.extractLsb' 1 1).toNat * 2 + (byte.extractLsb' 0 1).toNat := by
  have hbyte := byte.isLt
  simp only [BitVec.extractLsb'_toNat, Nat.shiftRight_eq_div_pow]
  omega

/-- Reading the bits as a binary numeral gives R82's weighted sum. -/
theorem valueOfBits_eight (s0 s1 s2 s3 s4 s5 s6 s7 : Bit) :
    valueOfBits [s0, s1, s2, s3, s4, s5, s6, s7] = s0.toNat * 128 + s1.toNat * 64 + s2.toNat * 32 + s3.toNat * 16 +
      s4.toNat * 8 + s5.toNat * 4 + s6.toNat * 2 + s7.toNat := by
  simp only [valueOfBits, List.foldl_cons, List.foldl_nil]
  omega

/-- Settles O20: SENDBYTE's data bits are the byte's in the order 7 down to 0, and their weighted sum is the byte. -/
theorem sentBitsReconstructTheByte : Obligations.SentBitsReconstructTheByte := by
  intro byte s hi ⟨hsda, hdir⟩ hscl
  obtain ⟨es, htr, hbits⟩ := lifeOf_sendByte_dataSets byte s
  refine ⟨_, es, exec_of_claimed (by simp [Instr.op]) hi ⟨hsda, hdir, hscl⟩, htr,
    ⟨_, _, _, _, _, _, _, _, hbits, rfl, rfl, byte_eq_weighted_sum byte⟩, ?_⟩
  rw [hbits, byte_eq_weighted_sum byte]
  exact valueOfBits_eight ..

end Sys2Proof.Machine
end

section
/-! The host command layer: short-circuits, and the display's power flag (42_host_command_layer.md R91 to R99). -/

namespace Sys2Proof.Machine

/-! ### Short-circuits -/

@[simp] theorem hostThen_next_ok (b : State → HostOutcome) (t : State) : hostThen (.next (t, .ok)) b = b t := rfl

@[simp] theorem hostThen_next_nack (b : State → HostOutcome) (t : State) :
    hostThen (.next (t, .nack)) b = .next (t, .nack) := rfl

/-- The two ways `A then B` goes on where `A` ends with a result (42_host_command_layer.md R91). -/
theorem hostThen_shortCircuits (a : HostOutcome) (b : State → HostOutcome) (t : State) :
    (a = .next (t, .nack) → hostThen a b = .next (t, .nack)) ∧ (a = .next (t, .ok) → hostThen a b = b t) :=
  ⟨fun h => by rw [h, hostThen_next_nack], fun h => by rw [h, hostThen_next_ok]⟩

/-- Settles O48: each of the three operations is by definition one `A then B`, with the control byte or the first command as
`A`. -/
theorem hostShortCircuits : Obligations.HostShortCircuits := by
  refine ⟨fun c s t => ?_, fun d s t => ?_, fun c d s t => ?_⟩
  · exact hostThen_shortCircuits (hostSendByte controlCommand s) (hostSendByte c) t
  · exact hostThen_shortCircuits (hostSendByte controlData s) (hostSendByte d) t
  · exact hostThen_shortCircuits (sendCommand c s) (sendCommand d) t

/-! ### Display power -/

/-- The command of the new power state, read off the flag before the toggle (42_host_command_layer.md R99). -/
theorem powerByte_not (on : Bool) : powerByte (!on) = if on then 0xAE#8 else 0xAF#8 := by
  cases on <;> rfl

@[simp] theorem commitPower_ok (old new : Bool) : commitPower old new .ok = new := rfl

@[simp] theorem commitPower_nack (old new : Bool) : commitPower old new .nack = old := rfl

/-- A toggle that ends has ended as its one send did, with the flag `commitPower` gives for the send's result. -/
theorem toggleDisplay_next {h g : HostState} {r : HostResult} (ended : toggleDisplay h = .next (g, r)) :
    sendCommand (powerByte (!h.displayOn)) h.block = .next (g.block, r) ∧
      g.displayOn = commitPower h.displayOn (!h.displayOn) r := by
  unfold toggleDisplay at ended
  split at ended
  · next sent =>
    cases ended
    exact ⟨sent, rfl⟩
  · cases ended
  · cases ended

/-- Settles O53: a toggle that ends has sent the new state's command, and its flag is `commitPower`'s. -/
theorem toggleCommitsAfterSuccess : Obligations.ToggleCommitsAfterSuccess := by
  intro h g r ended
  obtain ⟨sent, flag⟩ := toggleDisplay_next ended
  refine ⟨rfl, powerByte_not h.displayOn ▸ sent, fun hr => ?_, fun hr => ?_⟩
  · rw [flag, hr, commitPower_ok]
  · rw [flag, hr, commitPower_nack]

end Sys2Proof.Machine
end

section
/-! The NACK: which responses report it, and where in the trace its report stands (60_exceptions.md R110). -/

namespace Sys2Proof.Machine

/-- The one response with the NACK flag is SENDBYTE's to a 1; the bit operations' are `responseOf_bitOperation`'s. -/
theorem nackOf_responseOf_iff (o : Op) (v : Bit) : nackOf (responseOf o v) = 1#1 ↔ o = .sendByte ∧ v = 1#1 := by
  by_cases ho : o = .sendByte
  · subst ho
    revert v
    decide
  · obtain ⟨-, hnack, -⟩ := responseOf_bitOperation ho v
    simp [hnack, ho]

/-- A life's trace ends with the response event, after one event for each micro-operation of the list. -/
theorem lifeOf_tr_response (i : Instr) (s : State) :
    ∃ es, (lifeOf i s).tr = s.tr ++ es ++ [.rsp i.op (lifeOf i s).rsp] ∧
      es.length = (microOps i.op (argOf i)).length := by
  obtain ⟨es, htr, hlen⟩ := runMicro_tr (microOps i.op (argOf i)) (accept i.op (argOf i) s)
  exact ⟨es, by simp [lifeOf, complete_eq, htr], hlen⟩

/-- Settles O25: a completed execution is `lifeOf`, whose response has the NACK flag just where `nackOf_responseOf_iff` says; there
its trace is `lifeOf_tr_response`'s for SENDBYTE's list, which has 39 micro-operations for every byte. -/
theorem nackExactlyWhenTheSampleIsOne : Obligations.NackExactlyWhenTheSampleIsOne := by
  intro i s t hi h
  obtain ⟨-, rfl⟩ := exec_next hi h
  have reported : nackOf (lifeOf i s).rsp = 1#1 ↔ i.op = .sendByte ∧ nextDraw s = 1#1 := by
    rw [lifeOf_rsp, nackOf_responseOf_iff]
  refine ⟨reported, fun hnack => ?_⟩
  obtain ⟨hop, hdraw⟩ := reported.mp hnack
  have hrsp : (lifeOf i s).rsp = 0b011#3 := by
    rw [lifeOf_rsp, hop, hdraw]
    rfl
  obtain ⟨es, htr, hlen⟩ := lifeOf_tr_response i s
  rw [hop] at htr hlen
  rw [hrsp] at htr ⊢
  exact ⟨rfl, rfl, es, htr, hlen⟩

end Sys2Proof.Machine
end

section
/-! Words and instructions (30_encoding.md R45 to R47): a word is its two fields, and the decoder and the encoder say the same
about them. -/

namespace Sys2Proof

/-! ### The two fields of a word -/

@[simp] theorem opField_append (o : BitVec 3) (a : Byte) : opField (o ++ a) = o :=
  BitVec.extractLsb'_append_eq_left

@[simp] theorem argField_append (o : BitVec 3) (a : Byte) : argField (o ++ a) = a :=
  BitVec.extractLsb'_append_eq_right

theorem opField_append_argField (w : CmdWord) : opField w ++ argField w = w :=
  (BitVec.extractLsb'_append_extractLsb'_eq_extractLsb' rfl).trans BitVec.extractLsb'_eq_self

/-- A word is given by its fields. -/
theorem append_eq_append_iff (o o' : BitVec 3) (a a' : Byte) : o ++ a = o' ++ a' ↔ o = o' ∧ a = a' := by
  refine ⟨fun h => ⟨?_, ?_⟩, fun ⟨ho, ha⟩ => by rw [ho, ha]⟩
  · simpa using congrArg opField h
  · simpa using congrArg argField h

/-! ### The decoder -/

theorem decodeNoOperand_eq_ok (o : Op) (i j : Instr) (a : Byte) :
    decodeNoOperand o i a = .ok j ↔ a = 0x00#8 ∧ i = j := by
  unfold decodeNoOperand
  split <;> simp [*]

/-- A byte is a level exactly where its upper seven bits are zero (30_encoding.md R47). -/
theorem eq_level_iff (a : Byte) (level : Bit) :
    a = level.setWidth 8 ↔ a.extractLsb' 1 7 = 0#7 ∧ a.extractLsb' 0 1 = level := by
  have parts : a.extractLsb' 1 7 ++ a.extractLsb' 0 1 = a :=
    (BitVec.extractLsb'_append_extractLsb'_eq_extractLsb' rfl).trans BitVec.extractLsb'_eq_self
  constructor
  · rintro rfl
    rcases Machine.bit_cases level with rfl | rfl <;> decide
  · rintro ⟨upper, low⟩
    rw [← parts, upper, low]
    rcases Machine.bit_cases level with rfl | rfl <;> decide

theorem decodeSendBit_eq_ok (a : Byte) (j : Instr) :
    decodeSendBit a = .ok j ↔ ∃ level : Bit, a = level.setWidth 8 ∧ .sendBit level = j := by
  unfold decodeSendBit
  simp only [eq_level_iff]
  split <;> simp [*]

/-- THE DECODER: a word decodes to `i` exactly where its fields are the operation code and the operand of `i`. -/
theorem decode_eq_ok_iff (w : CmdWord) (i : Instr) :
    decode w = .ok i ↔ opField w = opCode i.op ∧ argField w = argOf i := by
  unfold decode
  rcases opcode_cases (opField w) with h | h | h | h | h | h | h | h <;> cases i <;>
    simp [h, decodeNoOperand_eq_ok, decodeSendBit_eq_ok, opCode, Instr.op, argOf]

theorem decode_encode (i : Instr) : decode (encode i) = .ok i := by
  rw [decode_eq_ok_iff, encode]
  exact ⟨opField_append .., argField_append ..⟩

theorem encode_of_decode {w : CmdWord} {i : Instr} (h : decode w = .ok i) : encode i = w := by
  obtain ⟨hop, harg⟩ := (decode_eq_ok_iff w i).mp h
  rw [encode, ← hop, ← harg, opField_append_argField]

/-- Settles O3: both directions are `decode_eq_ok_iff`, with the word put together from its two fields. -/
theorem decodeAndEncodeAgree : Obligations.DecodeAndEncodeAgree :=
  ⟨decode_encode, fun _ _ => encode_of_decode⟩

/-- Settles O4: six of the words are encodings of what they decode to; the two refusals are evaluated. -/
theorem specWordsDecode : Obligations.SpecWordsDecode :=
  ⟨decode_encode .claim, decode_encode (.sendBit 0#1), decode_encode (.sendBit 1#1), decode_encode .readBit,
    decode_encode .release, decode_encode (.sendByte 0x78#8), rfl, rfl⟩

/-! ### The opcode map -/

/-- The bits of `ARG` that a row of R46 compares. -/
def argMask : Op → Byte
  | .claim => 0xFF#8
  | .sendBit => 0xFE#8
  | .readBit => 0xFF#8
  | .release => 0xFF#8
  | .sendByte => 0x00#8

/-- A row compares all of `OP`, and of `ARG` what `argMask` says. -/
theorem opcodeRows_fields : ∀ r ∈ opcodeRows,
    r.mask = 0b111#3 ++ argMask r.op ∧ r.pattern = opCode r.op ++ 0x00#8 := by
  decide

theorem rowMatches_iff {r : OpcodeRow} (hr : r ∈ opcodeRows) (w : CmdWord) :
    rowMatches r w = true ↔ opField w = opCode r.op ∧ argField w &&& argMask r.op = 0x00#8 := by
  obtain ⟨hmask, hpattern⟩ := opcodeRows_fields r hr
  have whole : opField w &&& 0b111#3 = opField w := BitVec.and_allOnes
  rw [rowMatches, beq_iff_eq, hmask, hpattern]
  conv_lhs => rw [← opField_append_argField w, BitVec.and_append, whole]
  exact append_eq_append_iff ..

theorem argOf_and_argMask (i : Instr) : argOf i &&& argMask i.op = 0x00#8 := by
  cases i with
  | claim => rfl
  | sendBit level => rcases Machine.bit_cases level with rfl | rfl <;> rfl
  | readBit => rfl
  | release => rfl
  | sendByte byte => exact BitVec.and_zero

/-- The operands that an operation's row lets pass are those of its instructions (30_encoding.md R46, R47). -/
theorem and_argMask_eq_zero_iff (o : Op) (a : Byte) :
    a &&& argMask o = 0x00#8 ↔ ∃ i : Instr, i.op = o ∧ argOf i = a := by
  constructor
  · have all (h : a &&& 0xFF#8 = 0x00#8) : 0x00#8 = a := h.symm.trans BitVec.and_allOnes
    have upper : a &&& 0xFE#8 = 0x00#8 → ∃ level : Bit, level.setWidth 8 = a := by revert a; decide +kernel
    intro h
    cases o with
    | claim => exact ⟨.claim, rfl, all h⟩
    | sendBit =>
      obtain ⟨level, hlevel⟩ := upper h
      exact ⟨.sendBit level, rfl, hlevel⟩
    | readBit => exact ⟨.readBit, rfl, all h⟩
    | release => exact ⟨.release, rfl, all h⟩
    | sendByte => exact ⟨.sendByte a, rfl, rfl⟩
  · rintro ⟨i, rfl, rfl⟩
    exact argOf_and_argMask i

theorem decodeNoOperand_ne_reservedOp (o : Op) (i : Instr) (a : Byte) : decodeNoOperand o i a ≠ .error .reservedOp := by
  unfold decodeNoOperand
  split <;> simp

theorem decodeSendBit_ne_reservedOp (a : Byte) : decodeSendBit a ≠ .error .reservedOp := by
  unfold decodeSendBit
  split <;> simp

/-- Settles O2: a row selects by the fields as the decoder does; two rows compare with different operation codes; and only the last
branch of the decoder answers `reservedOp`. -/
theorem opcodeRowsSelectTheOperation : Obligations.OpcodeRowsSelectTheOperation := by
  have codes : opcodeRows.Pairwise fun r q => opCode r.op ≠ opCode q.op := by decide
  refine ⟨fun r hr w => ?_, codes.imp_of_mem fun {r q} hr hq differ w => ?_, fun w => ?_⟩
  · simp only [rowMatches_iff hr, and_argMask_eq_zero_iff, decode_eq_ok_iff]
    constructor
    · rintro ⟨hop, i, hi, harg⟩
      exact ⟨i, ⟨hi ▸ hop, harg.symm⟩, hi⟩
    · rintro ⟨i, ⟨hop, harg⟩, hi⟩
      exact ⟨hi ▸ hop, i, hi, harg.symm⟩
  · rintro ⟨hrw, hqw⟩
    obtain ⟨hr_code, -⟩ := (rowMatches_iff hr w).mp hrw
    obtain ⟨hq_code, -⟩ := (rowMatches_iff hq w).mp hqw
    exact differ (hr_code.symm.trans hq_code)
  · unfold decode
    rcases opcode_cases (opField w) with h | h | h | h | h | h | h | h <;>
      simp [h, decodeNoOperand_ne_reservedOp, decodeSendBit_ne_reservedOp]

end Sys2Proof
end

section
/-! R14 as an invariant: the pin shapes that steps and clock edges leave (10_state.md R14; 40_bit_transport.md R73). -/

namespace Sys2Proof.Machine

/-! ### States with the same pins -/

theorem samePins_refl (s : State) : SamePins s s := ⟨rfl, rfl, rfl, rfl⟩

theorem samePins_trans {s t u : State} (hst : SamePins s t) (htu : SamePins t u) : SamePins s u := by
  obtain ⟨h1, h2, h3, h4⟩ := hst
  obtain ⟨k1, k2, k3, k4⟩ := htu
  exact ⟨h1.trans k1, h2.trans k2, h3.trans k3, h4.trans k4⟩

/-- The environment's move touches no pin. -/
theorem samePins_envStep (m : MicroOp) (s : State) : SamePins (envStep m s) s := by
  cases m <;> exact samePins_refl s

/-- A micro-operation at a clock edge and the same one in a run of a list leave the same pins. -/
theorem samePins_microStep (v : Bit) (m : MicroOp) {s t : State} (h : SamePins s t) :
    SamePins (microStep v m s) (runMicro [m] t) := by
  obtain ⟨k1, k2, k3, k4⟩ := samePins_envStep m (microStep v m s)
  exact samePins_trans ⟨k1.symm, k2.symm, k3.symm, k4.symm⟩ (microStep_pins v (nextDraw t) m s t h)

theorem idleShape_of_samePins {ph : Phase} {s t : State} (h : SamePins t s) (hs : IdleShape ph s) : IdleShape ph t := by
  obtain ⟨h1, h2, h3, h4⟩ := h
  cases ph <;> simpa [IdleShape, Claimed, Released, h1, h2, h3, h4] using hs

/-! ### The shape through an operation -/

/-- A state that is idle with the pins of an idle one keeps its shape. -/
theorem pinInv_of_idle {s t : State} (hs : s.opr = .idle) (ht : t.opr = .idle) (h : SamePins t s) (hinv : PinInv s) :
    PinInv t := by
  rw [pinInv_idle hs] at hinv
  rw [pinInv_idle ht]
  exact hinv.imp (idleShape_of_samePins h) (idleShape_of_samePins h)

/-- An operation that has just been accepted is at the start of its way. -/
theorem midShape_accept {o : Op} {arg : Byte} {s : State} (hp : precondition o s = none) : MidShape o (accept o arg s) :=
  ⟨s, hp, samePins_refl s⟩

/-- One micro-operation further on an operation's way. -/
theorem midShape_microStep {o : Op} {s : State} {m : MicroOp} (v : Bit) (h : MidShape o s)
    (hm : (microOps o s.argr)[s.ustep.toNat]? = some m) :
    ∃ s0, precondition o s0 = none ∧
      SamePins (microStep v m s) (runMicro ((microOps o s.argr).take (s.ustep.toNat + 1)) s0) := by
  obtain ⟨s0, hp, hpins⟩ := h
  refine ⟨s0, hp, ?_⟩
  rw [List.take_add_one, hm, Option.toList_some, runMicro_append]
  exact samePins_microStep v m hpins

/-- A completed operation is idle, in the shape its whole list leaves. -/
theorem pinInv_complete {o : Op} {b : Byte} {s s0 : State} (hp : precondition o s0 = none)
    (h : SamePins s (runMicro (microOps o b) s0)) : PinInv (complete o s) := by
  obtain ⟨hidle, -⟩ := complete_fields o s
  rw [pinInv_idle hidle]
  exact shape_of_whole_list hp (samePins_trans (complete_pins o s) h)

/-- An edge of a busy circuit leaves the shape: it completes, counts, or goes one micro-operation further. -/
theorem pinInv_microEdge {p : Params} {ext : Bit} {o : Op} {s : State} (hb : s.opr = .busy o) (h : MidShape o s) :
    PinInv (microEdge p ext o s) := by
  rcases microEdge_cases p ext o s with ⟨hlen, hedge⟩ | ⟨m, hm, hcase⟩
  · obtain ⟨s0, hp, hpins⟩ := h
    rw [List.take_of_length_le hlen] at hpins
    rw [hedge]
    exact pinInv_complete hp hpins
  · rcases hcase with ⟨-, hedge⟩ | ⟨-, hlen, hedge⟩ | ⟨-, -, hustep, hedge⟩
    · rw [hedge]
      exact (pinInv_busy (t := countDown s) hb).mpr h
    · obtain ⟨s0, hp, hpins⟩ := midShape_microStep ext h hm
      rw [← hlen, List.take_length] at hpins
      rw [hedge]
      exact pinInv_complete hp hpins
    · have hbusy : (loadDelay p (microOps o s.argr) (microStep ext m s)).opr = .busy o := (microStep_opr ext m s).trans hb
      obtain ⟨s0, hp, hpins⟩ := midShape_microStep ext h hm
      rw [← microStep_argr ext m s, ← hustep] at hpins
      rw [hedge, pinInv_busy hbusy]
      exact ⟨s0, hp, hpins⟩

/-! ### The invariant -/

theorem finish_opr (o : Op) (s : State) : (finish o s).opr = .idle := (complete_fields _ _).1

theorem lifeOf_opr (i : Instr) (s : State) : (lifeOf i s).opr = .idle := (complete_fields _ _).1

/-- Settles O34: a step finishes an operation on its way (`finish_shape`), runs one whole (`lifeOf_shape`), or moves no pin. -/
theorem stepKeepsThePinShape : Obligations.StepKeepsThePinShape := by
  intro s t hinv hstep
  rcases step_cases s with ⟨o, hb, hs⟩ | ⟨hi, -, hs⟩ | ⟨w, ws, i, hi, -, -, hs⟩ | ⟨w, ws, e, hi, -, -, hs⟩ <;>
    rw [hs] at hstep
  · cases hstep
    rw [pinInv_busy hb] at hinv
    rw [pinInv_idle (finish_opr o s)]
    exact finish_shape hinv
  · cases hstep
    exact pinInv_of_idle (t := idleHold s) hi hi (samePins_refl s) hinv
  · obtain ⟨hp, rfl⟩ := exec_next (s := takeCmd s) hi hstep
    rw [pinInv_idle (lifeOf_opr i _)]
    exact lifeOf_shape hp
  · cases hstep
    exact pinInv_of_idle (t := acceptIllegal (takeCmd s)) hi hi (samePins_refl s) hinv

/-- Settles O35: an edge resets to the Released shape, moves a busy block on its way (`pinInv_microEdge`), starts an operation under
its precondition, or moves no pin. -/
theorem clockEdgeKeepsThePinShape : Obligations.ClockEdgeKeepsThePinShape := by
  intro p i s t hinv hedge
  rcases clockEdge_cases hedge with ⟨-, rfl⟩ | ⟨-, o, hb, rfl⟩ | ⟨-, hi, -, rfl⟩ | ⟨-, -, -, j, -, hp, rfl⟩ |
    ⟨-, hi, -, e, -, rfl⟩
  · exact .inl ⟨released_reset, rfl, rfl⟩
  · rw [pinInv_busy hb] at hinv
    exact pinInv_microEdge (s := pulseOver s) hb hinv
  · exact pinInv_of_idle (t := idleHold s) hi hi (samePins_refl s) hinv
  · exact (pinInv_busy rfl).mpr (midShape_accept hp)
  · exact pinInv_of_idle (t := acceptIllegal s) hi hi (samePins_refl s) hinv

end Sys2Proof.Machine
end

section
/-! The single updates: the micro-operations, reset, and the steps that run one instruction or none (00_scope.md R7;
70_reset_and_hazards.md R130; 60_exceptions.md R127). -/

namespace Sys2Proof.Machine

/-- A sample of an input pin is the environment's level (20_memory.md R36). -/
theorem pinGet_of_sdaDir_inp {s : State} (h : s.sdaDir = .inp) (ext : Bit) : pinGet ext s = ext := by
  simp [pinGet, lineLevel, dirOf, h]

/-- Settles O5: `microStep` writes these fields by its definition; what an input pin samples is `pinGet_of_sdaDir_inp`. -/
theorem microOperationEffects : Obligations.MicroOperationEffects := by
  intro ext s
  refine ⟨rfl, fun _ => rfl, fun _ => rfl, fun _ => rfl, fun _ => rfl, fun h => ?_, fun _ => rfl, fun _ => ⟨rfl, rfl⟩⟩
  rw [microStep, pinGet_of_sdaDir_inp h]
  rfl

theorem clockEdge_of_rst {i : PortIn} (h : i.rst = true) (p : Params) (s : State) :
    clockEdge p i s = .next (applyReset s) := by
  simp [clockEdge, h]

/-- Settles O9: the edge is `applyReset`, which writes `State.reset` but for the other agents' fields. -/
theorem resetInputOverridesEverything : Obligations.ResetInputOverridesEverything :=
  fun p _ s h => ⟨applyReset s, clockEdge_of_rst h p s, rfl⟩

theorem step_of_legal {s : State} {w : CmdWord} {ws : List CmdWord} {i : Instr} (hi : s.opr = .idle)
    (hc : s.cmds = w :: ws) (hd : decode w = .ok i) : step s = exec i { s with cmds := ws } := by
  simp [step, hi, hc, hd, takeCmd_of_cons hc]

theorem decode_of_decodeTableWord {nbits n : Nat} {i : Instr} (h : decodeTableWord nbits n = some i) :
    decode (tableWord nbits n) = .ok i := by
  unfold decodeTableWord at h
  cases hd : decode (tableWord nbits n) with
  | ok j =>
    rw [hd] at h
    exact congrArg Except.ok (Option.some.inj h)
  | error e =>
    rw [hd] at h
    cases h

/-- Settles O29: both parts are `step_of_legal`; a state with a fetched word is idle with that word first. -/
theorem stepRunsTheDecodedInstruction : Obligations.StepRunsTheDecodedInstruction :=
  ⟨fun _ _ _ _ hi hc hd => step_of_legal hi hc hd,
    fun s nbits n _ h => step_of_legal (s := s.withFetchWord nbits n) rfl rfl (decode_of_decodeTableWord h)⟩

/-- Settles O31: the step is `idleHold`. -/
theorem idleBlockHolds : Obligations.IdleBlockHolds := by
  intro s hi hc
  simp [step, hi, hc, idleHold, pulseOver]

/-- Settles O37: reset is idle, in the Released shape, with a legal response and the sequencer at 0. -/
theorem invariantsHoldAtReset : Obligations.InvariantsHoldAtReset :=
  ⟨(pinInv_idle opr_reset).mpr (.inl ⟨released_reset, rfl, rfl⟩), .inl rfl, fun _ => ⟨rfl, rfl⟩⟩

end Sys2Proof.Machine
end

section
/-! When an instruction runs, and what it then does to the pins, the registers and the trace (40_bit_transport.md section 1, R72,
R73; 41_byte_framer.md R85, R87). -/

namespace Sys2Proof.Machine

/-! ### Preconditions -/

theorem exec_refused_of_broken {i : Instr} {s : State} (hi : s.opr = .idle) (h : precondition i.op s ≠ none) :
    ∃ r, exec i s = .refused r := by
  obtain ⟨r, hr⟩ := Option.ne_none_iff_exists'.mp h
  exact ⟨r, exec_refused hi hr⟩

theorem op_eq_claim_iff (i : Instr) : i.op = .claim ↔ i = .claim := by
  cases i <;> simp [Instr.op]

/-- What a broken precondition of the four operations of a Claimed bus is refused with (log entry 4). -/
theorem precondition_eq_needsClaimed {o : Op} (ho : o ≠ .claim) (s : State) : precondition o s = needsClaimed o s := by
  cases o with
  | claim => exact absurd rfl ho
  | sendBit => rfl
  | readBit => rfl
  | release => rfl
  | sendByte => rfl

/-- Settles O15: along the tests of `needsReleased` and `needsClaimed`; where all hold the instruction's whole life is what `finish`
makes of the accepted state. -/
theorem brokenPreconditionIsRefusedByName : Obligations.BrokenPreconditionIsRefusedByName := by
  intro i s hi
  rw [finish_accept]
  by_cases hclaim : i = .claim
  · subst hclaim
    rw [if_pos rfl]
    by_cases hrel : s.sdaDir = .inp ∧ s.sclDir = .inp
    · by_cases hhigh : s.sdaOut = 1#1 ∧ s.sclOut = 1#1
      · rw [if_neg (not_not_intro hrel), if_neg (not_not_intro hhigh)]
        exact exec_run hi (precondition_claim.mpr ⟨hrel, hhigh⟩)
      · rw [if_neg (not_not_intro hrel), if_pos hhigh]
        exact exec_refused hi ((if_pos hrel).trans (if_neg hhigh))
    · rw [if_pos hrel]
      exact exec_refused hi (if_neg hrel)
  · have ho : i.op ≠ .claim := mt (op_eq_claim_iff i).mp hclaim
    have hpre := precondition_eq_needsClaimed ho s
    rw [if_neg hclaim]
    by_cases hcl : s.sdaDir = .out ∧ s.sclDir = .out
    · by_cases hlow : s.sclOut = 0#1
      · rw [if_neg (not_not_intro hcl), if_neg (not_not_intro hlow)]
        exact exec_run hi ((precondition_claimed ho).mpr ⟨hcl, hlow⟩)
      · rw [if_neg (not_not_intro hcl), if_pos hlow]
        exact exec_refused hi (hpre.trans ((if_pos hcl).trans (if_neg hlow)))
    · rw [if_pos hcl]
      exact exec_refused hi (hpre.trans (if_neg hcl))

/-- Settles O33: a step that does not end in a next state is an instruction's execution, and an idle block runs it unless its
precondition is broken. -/
theorem onlyBrokenPreconditionsStopTheMachine : Obligations.OnlyBrokenPreconditionsStopTheMachine := by
  intro s
  rcases step_cases s with ⟨o, -, hs⟩ | ⟨-, -, hs⟩ | ⟨w, ws, i, hi, hc, hd, hs⟩ | ⟨w, ws, e, -, -, -, hs⟩
  · exact .inl ⟨_, hs⟩
  · exact .inl ⟨_, hs⟩
  · have hpins : precondition i.op (takeCmd s) = precondition i.op s := precondition_pins _ _ _ (samePins_refl s)
    cases hp : precondition i.op s with
    | none => exact .inl ⟨_, hs.trans (exec_run hi (hpins.trans hp))⟩
    | some r => exact .inr ⟨w, ws, i, r, hi, hc, hd, hp, hs.trans (exec_refused hi (hpins.trans hp))⟩
  · exact .inl ⟨_, hs⟩

/-! ### CLAIM -/

theorem exec_claim_of_released {s : State} (hi : s.opr = .idle)
    (h : s.sdaDir = .inp ∧ s.sclDir = .inp ∧ s.sdaOut = 1#1 ∧ s.sclOut = 1#1) :
    exec .claim s = .next (lifeOf .claim s) :=
  exec_run hi (precondition_claim.mpr (and_assoc.mpr h))

/-- CLAIM's first step drives each line to the level it has under the pull-ups (40_bit_transport.md R61). -/
theorem line_cfgOut {s : State} (hrel : Released s) (hsda : s.sdaOut = 1#1) (hscl : s.sclOut = 1#1) (ext : Bit) (pin : Pin) :
    line pulledUp pin (microStep ext .cfgOut s) = line pulledUp pin s := by
  rw [line_pulledUp_of_released hrel]
  cases pin with
  | sda => exact (line_of_dirOf_out rfl _).trans hsda
  | scl => exact (line_of_dirOf_out rfl _).trans hscl

/-- Settles O10: on a Released bus with both latches high CLAIM ends in the state `lifeOf_claim` gives. -/
theorem claimEffect : Obligations.ClaimEffect := by
  refine ⟨rfl, fun s hi => ⟨fun h => ⟨?_, ?_⟩, fun h => ?_⟩⟩
  · exact ⟨_, exec_claim_of_released hi h, by simp [lifeOf_claim, hi]⟩
  · obtain ⟨hsdaDir, hsclDir, hsda, hscl⟩ := h
    exact line_cfgOut ⟨hsdaDir, hsclDir⟩ hsda hscl (nextDraw s)
  · exact exec_refused_of_broken hi fun hp => h (and_assoc.mp (precondition_claim.mp hp))

/-! ### Pins and counts -/

/-- Settles O16: the pins are read off the states in which the five lives end, the counts off the lists. -/
theorem pinStateBeforeAndAfter : Obligations.PinStateBeforeAndAfter := by
  refine ⟨fun s hi h1 h2 h3 h4 => ?_, fun s d hi h1 h2 h3 h4 => ⟨fun level => ?_, ?_, ?_, fun byte => ?_⟩,
    by decide, fun level => ⟨rfl, rfl, rfl, rfl⟩, by decide, by decide⟩
  · exact ⟨_, exec_claim_of_released hi ⟨h1, h2, h3, h4⟩, by simp [lifeOf_claim]⟩
  · exact ⟨_, exec_of_claimed (by simp [Instr.op]) hi ⟨h1, h2, h4⟩, by simp [lifeOf_sendBit, h1, h2]⟩
  · exact ⟨_, exec_of_claimed (by decide) hi ⟨h1, h2, h4⟩, by simp [lifeOf_readBit, h2, h3]⟩
  · exact ⟨_, exec_of_claimed (by decide) hi ⟨h1, h2, h4⟩, by simp [lifeOf_release]⟩
  · exact ⟨_, exec_of_claimed (by simp [Instr.op]) hi ⟨h1, h2, h4⟩, by simp [lifeOf_sendByte, h2]⟩

/-! ### The trace -/

theorem levelOf_setWidth (level : Bit) : levelOf (level.setWidth 8) = level := by
  revert level; decide

/-- A life's trace is its list, with the environment's answer in the sample, and its response. -/
theorem lifeOf_tr (i : Instr) (s : State) :
    (lifeOf i s).tr = s.tr ++ ((microOps i.op (argOf i)).map (eventOf (nextDraw s)) ++
      [.rsp i.op (responseOf i.op (nextDraw s))]) := by
  cases i with
  | claim => rw [lifeOf_claim]; rfl
  | sendBit level =>
    rw [lifeOf_sendBit, Instr.op, argOf, microOps, levelOf_setWidth]
    rfl
  | readBit => rw [lifeOf_readBit]; rfl
  | release => rw [lifeOf_release]; rfl
  | sendByte byte =>
    have bits : bitOf byte = fun i => byte.extractLsb' i 1 := funext (bitOf_eq byte)
    rw [lifeOf_sendByte, Instr.op, argOf, microOps, sendByteOps, bitsOf, bits]
    rfl

/-- Settles O18: a completed execution is `lifeOf`, whose trace is `lifeOf_tr`. -/
theorem eventsFollowTheList : Obligations.EventsFollowTheList := by
  intro i s t hi h
  obtain ⟨-, rfl⟩ := exec_next hi h
  exact lifeOf_tr i s

theorem finish_tr (o : Op) (s : State) : ∃ es, (finish o s).tr = s.tr ++ es := by
  obtain ⟨es, htr, -⟩ := runMicro_tr (remaining o s) s
  exact ⟨es ++ [_], by rw [finish, complete_eq, respond_tr, retire_tr, htr, List.append_assoc]⟩

/-- Settles O22: a step finishes an operation, runs one whole, records one response, or records nothing. -/
theorem traceOnlyGrows : Obligations.TraceOnlyGrows := by
  intro s t hstep
  rcases step_cases s with ⟨o, -, hs⟩ | ⟨-, -, hs⟩ | ⟨w, ws, i, hi, -, -, hs⟩ | ⟨w, ws, e, -, -, -, hs⟩ <;>
    rw [hs] at hstep
  · cases hstep
    exact finish_tr o s
  · cases hstep
    exact ⟨[], (List.append_nil _).symm⟩
  · obtain ⟨-, rfl⟩ := exec_next (s := takeCmd s) hi hstep
    exact ⟨_, lifeOf_tr i (takeCmd s)⟩
  · cases hstep
    exact ⟨[_], rfl⟩

/-! ### The frame -/

/-- What every completed instruction leaves of the registers and of the host's words. -/
theorem lifeOf_registers (i : Instr) (s : State) :
    (lifeOf i s).cmds = s.cmds ∧ (lifeOf i s).argr = argOf i ∧ (lifeOf i s).opr = .idle ∧ (lifeOf i s).ustep = 0#6 ∧
      (lifeOf i s).dly = 0 ∧ (lifeOf i s).rspValid = true := by
  simp [lifeOf, complete_eq]

/-- Only READBIT and SENDBYTE use up an answer of the environment. -/
theorem lifeOf_draws {i : Instr} (hbyte : ∀ byte, i ≠ .sendByte byte) (hread : i ≠ .readBit) (s : State) :
    (lifeOf i s).draws = s.draws ∧ (lifeOf i s).drawIx = s.drawIx := by
  cases i with
  | claim => simp [lifeOf_claim]
  | sendBit level => simp [lifeOf_sendBit]
  | readBit => exact absurd rfl hread
  | release => simp [lifeOf_release]
  | sendByte byte => exact absurd rfl (hbyte byte)

/-- Settles O17: the registers are `lifeOf_registers`'s; on a Claimed bus with the clock low READBIT, SENDBIT and SENDBYTE leave the
pins they write as they found them. -/
theorem instructionFrame : Obligations.InstructionFrame := by
  intro i s t hi h
  obtain ⟨hp, rfl⟩ := exec_next hi h
  obtain ⟨hcmds, hargr, hopr, hustep, hdly, hvalid⟩ := lifeOf_registers i s
  refine ⟨hcmds, hargr, ⟨_, lifeOf_tr i s⟩, hopr, hustep, hdly, hvalid,
    fun hbyte hread => lifeOf_draws hbyte hread s, ?_, ?_, ?_⟩
  · rintro rfl
    obtain ⟨⟨hsda, -⟩, hlow⟩ := (precondition_claimed (by decide)).mp hp
    rw [lifeOf_readBit]
    exact ⟨hsda, rfl, rfl, hlow⟩
  · rintro level rfl
    obtain ⟨-, hlow⟩ := (precondition_claimed (by simp [Instr.op])).mp hp
    simp [lifeOf_sendBit, hlow]
  · rintro byte rfl
    obtain ⟨⟨hsda, -⟩, hlow⟩ := (precondition_claimed (by simp [Instr.op])).mp hp
    simp [lifeOf_sendByte, hsda, hlow]

/-! ### NACK and response -/

/-- Settles O26: `lifeOf_sendByte` uses the answer in `RSP` and the trace alone. -/
theorem nackChangesOnlyTheResponse : Obligations.NackChangesOnlyTheResponse := by
  intro byte s ds hi ⟨hsda, hscl⟩ hlow
  have runs (v : Bit) := exec_of_claimed (i := .sendByte byte) (by simp [Instr.op])
    (s := { s with draws := v :: ds }) hi ⟨hsda, hscl, hlow⟩
  refine ⟨_, _, runs 0#1, runs 1#1, ?_⟩
  simp [lifeOf_sendByte, responseOf_sendByte, nextDraw, hscl]

theorem rspLegal_responseOf {o : Op} {v : Bit} {s : State} (h : s.rsp = responseOf o v) : RspLegal s := by
  rcases responseOf_legal o v with hv | hv | hv <;> rw [RspLegal, h, hv] <;> decide

theorem rspLegal_complete (o : Op) (s : State) : RspLegal (complete o s) :=
  rspLegal_responseOf (by rw [complete_eq, respond_rsp])

theorem microStep_rsp (v : Bit) (m : MicroOp) (s : State) : (microStep v m s).rsp = s.rsp := by
  cases m <;> simp [microStep]

theorem rspLegal_microEdge {p : Params} {ext : Bit} {o : Op} {s : State} (h : RspLegal s) :
    RspLegal (microEdge p ext o s) := by
  rcases microEdge_cases p ext o s with ⟨-, hedge⟩ | ⟨m, -, ⟨-, hedge⟩ | ⟨-, -, hedge⟩ | ⟨-, -, -, hedge⟩⟩ <;> rw [hedge]
  · exact rspLegal_complete o s
  · exact h
  · exact rspLegal_complete o _
  · have hrsp : (loadDelay p (microOps o s.argr) (microStep ext m s)).rsp = s.rsp := microStep_rsp ext m s
    rw [RspLegal, hrsp]
    exact h

/-- Settles O28: a completion writes a value of R50's table, an illegal word writes 100, reset 000, and nothing else writes `RSP`. -/
theorem responseStaysLegal : Obligations.ResponseStaysLegal := by
  refine ⟨fun s t h hstep => ?_, fun p i s t h hedge => ?_, fun s h => ?_⟩
  · rcases step_cases s with ⟨o, -, hs⟩ | ⟨-, -, hs⟩ | ⟨w, ws, i, hi, -, -, hs⟩ | ⟨w, ws, e, -, -, -, hs⟩ <;>
      rw [hs] at hstep
    · cases hstep
      exact rspLegal_complete o _
    · cases hstep
      exact h
    · obtain ⟨-, rfl⟩ := exec_next (s := takeCmd s) hi hstep
      exact rspLegal_complete i.op _
    · cases hstep
      exact .inr (.inr (.inr rfl))
  · rcases clockEdge_cases hedge with ⟨-, rfl⟩ | ⟨-, o, -, rfl⟩ | ⟨-, -, -, rfl⟩ | ⟨-, -, -, j, -, -, rfl⟩ |
      ⟨-, -, -, e, -, rfl⟩
    · exact .inl rfl
    · exact rspLegal_microEdge (s := pulseOver s) h
    · exact h
    · exact h
    · exact .inr (.inr (.inr rfl))
  · rcases h with h | h | h | h <;> rw [h] <;> decide

/-! ### SENDBYTE and the nine commands -/

/-- The events of a SENDBIT and its response. -/
def sendBitEvents (level : Bit) : List Event :=
  [.set .sda level, .set .scl 1#1, .dly .unit, .set .scl 0#1, .rsp .sendBit 0b000#3]

/-- SENDBITs one after the other on a Claimed bus with the clock low: they leave the last level in the data latch and use up no
answer. -/
theorem execAll_sendBits (levels : List Bit) (is : List Instr) {s : State} (hi : s.opr = .idle) (hc : Claimed s)
    (hlow : s.sclOut = 0#1) :
    ∃ u, execAll (levels.map .sendBit ++ is) s = execAll is u ∧ u.opr = .idle ∧ Claimed u ∧ u.sclOut = 0#1 ∧
      u.sdaOut = levels.getLastD s.sdaOut ∧ u.draws = s.draws ∧ u.drawIx = s.drawIx ∧
      u.tr = s.tr ++ levels.flatMap sendBitEvents := by
  induction levels generalizing s with
  | nil => exact ⟨s, rfl, hi, hc, hlow, rfl, rfl, rfl, (List.append_nil _).symm⟩
  | cons level levels ih =>
    have hrun := exec_of_claimed (i := .sendBit level) (by simp [Instr.op]) hi ⟨hc.1, hc.2, hlow⟩
    have hlife := lifeOf_sendBit level s
    obtain ⟨u, hu, hopr, hclaimed, hscl, hsda, hdraws, hix, htr⟩ :=
      ih (s := lifeOf (.sendBit level) s) (lifeOf_opr _ s) (by rw [hlife]; exact hc) (by rw [hlife])
    rw [hlife] at hsda hdraws hix htr
    refine ⟨u, ?_, hopr, hclaimed, hscl, ?_, hdraws, hix, ?_⟩
    · simp only [List.map_cons, List.cons_append, execAll, hrun, hu]
    · rw [hsda, List.getLastD_cons]
    · rw [htr, List.flatMap_cons, sendBitEvents, List.append_assoc]

theorem bitFlagOf_responseOf_sendByte (v : Bit) :
    bitFlagOf (responseOf .sendByte v) = bitFlagOf (responseOf .readBit v) := by
  revert v; decide

/-- Settles O21: SENDBYTE's pulses are those of the eight SENDBITs, whose response events `pinEvents` leaves out, and its last part
is READBIT's, from the same answers. -/
theorem sendByteEqualsNineBitCommands : Obligations.SendByteEqualsNineBitCommands := by
  intro byte s hi hc hlow
  obtain ⟨u, hu, hopr, hclaimed, hscl, hsda, hdraws, hix, htr⟩ :=
    execAll_sendBits ([7, 6, 5, 4, 3, 2, 1, 0].map fun i => byte.extractLsb' i 1) [.readBit] hi hc hlow
  have hread := exec_of_claimed (i := .readBit) (by decide) hopr ⟨hclaimed.1, hclaimed.2, hscl⟩
  have hdraw : nextDraw u = nextDraw s := by rw [nextDraw, nextDraw, hdraws, hix]
  refine ⟨_, lifeOf .readBit u, _, _, exec_of_claimed (by simp [Instr.op]) hi ⟨hc.1, hc.2, hlow⟩, ?_,
    by rw [lifeOf_sendByte], by rw [lifeOf_readBit, htr, List.append_assoc], ?_, ?_, ?_, ?_⟩
  · refine Eq.trans hu ?_
    simp only [execAll, hread]
  · rw [hdraw]; rfl
  · rw [lifeOf_sendByte, lifeOf_readBit]
    exact ⟨rfl, hc.2.trans hclaimed.2.symm, hsda.symm, rfl⟩
  · rw [lifeOf_rsp, lifeOf_rsp, hdraw]; exact bitFlagOf_responseOf_sendByte _
  · rw [lifeOf_sendByte, lifeOf_readBit, hdraws]

end Sys2Proof.Machine
end

section
/-! The operation in flight: its edges, its events, its sample and its end (10_state.md R18, R19; 30_encoding.md R57, R58;
70_reset_and_hazards.md R152). -/

namespace Sys2Proof.Machine

/-! ### One edge -/

theorem clockEdge_busy {i : PortIn} {s : State} {o : Op} (hr : i.rst = false) (hb : s.opr = .busy o) (p : Params) :
    clockEdge p i s = .next (microEdge p i.extSda o (pulseOver s)) := by
  simp [clockEdge, hr, hb]

theorem clockEdge_of_legal {i : PortIn} {s : State} {j : Instr} (hi : s.opr = .idle) (hr : i.rst = false)
    (hv : i.cmdValid = true) (hd : decode i.cmd = .ok j) (hp : precondition j.op s = none) (p : Params) :
    clockEdge p i s = .next (accept j.op (argOf j) s) := by
  simp [clockEdge, commandEdge, acceptEdge, acceptEdge_load, hi, hr, hv, hd, hp]

theorem clockEdge_of_no_command {i : PortIn} {s : State} (hi : s.opr = .idle) (hr : i.rst = false)
    (hv : i.cmdValid = false) (p : Params) : clockEdge p i s = .next (idleHold s) := by
  simp [clockEdge, hi, hr, hv]

/-- The event of a micro-operation, with the bit it leaves in `sample` where it samples (00_scope.md R7). -/
theorem microStep_tr_eventOf (v : Bit) (m : MicroOp) (s : State) :
    (microStep v m s).tr = s.tr ++ [eventOf (microStep v m s).sample m] := by
  cases m <;> simp [microStep, eventOf]

theorem eventOf_of_ne_get {m : MicroOp} (h : m ≠ .get) (v w : Bit) : eventOf v m = eventOf w m := by
  cases m with
  | get => exact absurd rfl h
  | cfgOut => rfl
  | dir p d => rfl
  | set p b => rfl
  | delay d => rfl

theorem not_isRsp_eventOf (v : Bit) (m : MicroOp) : isRsp (eventOf v m) = false := by
  cases m <;> rfl

theorem delay_or_not (m : MicroOp) : (∃ d, m = .delay d) ∨ ∀ d, m ≠ .delay d := by
  cases m <;> simp

theorem delayLoad_eq_zero {m : MicroOp} (h : ∀ d, m ≠ .delay d) (p : Params) : delayLoad p (some m) = 0 := by
  cases m with
  | delay d => exact absurd rfl (h d)
  | cfgOut => rfl
  | dir p d => rfl
  | set p b => rfl
  | get => rfl

theorem stillCounting_eq_false {m : MicroOp} (h : ∀ d, m ≠ .delay d) (s : State) : stillCounting m s = false := by
  cases m with
  | delay d => exact absurd rfl (h d)
  | cfgOut => rfl
  | dir p d => rfl
  | set p b => rfl
  | get => rfl

/-- The edge in the middle of a delay. -/
theorem microEdge_of_counting {o : Op} {s : State} {m : MicroOp} (hm : (microOps o s.argr)[s.ustep.toNat]? = some m)
    (hc : stillCounting m s = true) (p : Params) (ext : Bit) : microEdge p ext o s = countDown s := by
  simp [microEdge, hm, hc]

/-- The edge at which a micro-operation is carried out: the operation completes after the last, and goes on after another. -/
theorem microEdge_of_not_counting {o : Op} {s : State} {m : MicroOp}
    (hm : (microOps o s.argr)[s.ustep.toNat]? = some m) (hc : stillCounting m s = false) (p : Params) (ext : Bit) :
    ((microOps o s.argr).length = s.ustep.toNat + 1 ∧ microEdge p ext o s = complete o (microStep ext m s)) ∨
    (s.ustep.toNat + 1 < (microOps o s.argr).length ∧ (microStep ext m s).ustep.toNat = s.ustep.toNat + 1 ∧
      microEdge p ext o s = loadDelay p (microOps o s.argr) (microStep ext m s)) := by
  have hlt := (List.getElem?_eq_some_iff.mp hm).1
  rcases microEdge_cases p ext o s with ⟨hlen, -⟩ | ⟨m', hm', hcase⟩
  · omega
  · obtain rfl : m' = m := Option.some.inj (hm'.symm.trans hm)
    rcases hcase with ⟨hc', -⟩ | ⟨-, hlen, hedge⟩ | ⟨-, hlen, hustep, hedge⟩
    · rw [hc] at hc'
      cases hc'
    · exact .inl ⟨hlen, hedge⟩
    · exact .inr ⟨hlen, hustep, hedge⟩

/-- What an operation's completing edge leaves, where `m` is its last micro-operation. -/
theorem complete_microStep (o : Op) (v : Bit) (m : MicroOp) (s : State) :
    ∃ w, (complete o (microStep v m s)).rsp = responseOf o w ∧
      (complete o (microStep v m s)).tr = s.tr ++ [eventOf w m, .rsp o (responseOf o w)] := by
  refine ⟨(microStep v m s).sample, ?_, ?_⟩
  · rw [complete_eq, respond_rsp]
  · rw [complete_eq, respond_tr, retire_tr, microStep_tr_eventOf, List.append_assoc, List.singleton_append]

/-! ### Delays -/

/-- Settles O7: in a delay the edge is `countDown` while more than a cycle is left, and otherwise the delay's micro-operation; the
edge that comes to a delay is `loadDelay`. -/
theorem delayCountsDown : Obligations.DelayCountsDown := by
  intro p i s o d hr hb
  rw [clockEdge_busy hr hb]
  refine ⟨fun hm hd => ?_, fun hm hd => ⟨_, rfl, ?_⟩, fun t hnext hedge hustep => ?_⟩
  · rw [microEdge_of_counting (s := pulseOver s) hm (decide_eq_true hd)]
    rfl
  · have hlast : stillCounting (.delay d) (pulseOver s) = false := by simp [stillCounting, hd]
    rcases microEdge_of_not_counting (s := pulseOver s) hm hlast p i.extSda with ⟨-, hedge⟩ | ⟨-, -, hedge⟩ <;> rw [hedge]
    · obtain ⟨w, -, htr⟩ := complete_microStep o i.extSda (.delay d) (pulseOver s)
      exact ⟨.inr (complete_fields o _).1, _, htr⟩
    · exact ⟨.inl rfl, [], rfl⟩
  · have hlt := (List.getElem?_eq_some_iff.mp hnext).1
    cases hedge
    rcases microEdge_cases p i.extSda o (pulseOver s) with ⟨hlen, -⟩ | ⟨m, -, ⟨-, hedge⟩ | ⟨-, hlen, -⟩ | ⟨-, -, hu, hedge⟩⟩
    · simp only [pulseOver_argr, pulseOver_ustep] at hlen
      omega
    · have stays : s.ustep = s.ustep + 1#6 := by
        rw [hedge] at hustep
        exact hustep
      bv_omega
    · simp only [pulseOver_argr, pulseOver_ustep] at hlen
      omega
    · rw [hedge, loadDelay, hu, pulseOver_argr, pulseOver_ustep, hnext]
      rfl

/-! ### The sequencer's place in its list -/

theorem delayLoad_le (p : Params) (m : Option MicroOp) : delayLoad p m ≤ p.tUnit := by
  have half : p.tHalf ≤ p.tUnit := by unfold Params.tUnit; omega
  rcases m with _ | m
  · exact Nat.zero_le _
  · rcases delay_or_not m with ⟨d, rfl⟩ | hm
    · cases d with
      | unit => exact Nat.le_refl _
      | half => exact half
    · rw [delayLoad_eq_zero hm]
      exact Nat.zero_le _

/-- Every operation starts with a move of the pins and goes on after it. -/
theorem microOps_head (o : Op) (b : Byte) :
    ∃ m n ms, microOps o b = m :: n :: ms ∧ m ≠ .get ∧ ∀ d, m ≠ .delay d := by
  cases o with
  | claim => exact ⟨_, _, _, rfl, by simp, by simp⟩
  | sendBit => exact ⟨_, _, _, rfl, by simp, by simp⟩
  | readBit => exact ⟨_, _, _, rfl, by simp, by simp⟩
  | release => exact ⟨_, _, _, rfl, by simp, by simp⟩
  | sendByte => exact ⟨_, _, _, rfl, by simp, by simp⟩

theorem seqInv_idle {p : Params} {s : State} (h : s.opr = .idle) : SeqInv p s ↔ s.ustep = 0#6 ∧ s.dly = 0 := by
  unfold SeqInv
  rw [h]

theorem seqInv_busy {p : Params} {s : State} {o : Op} (h : s.opr = .busy o) :
    SeqInv p s ↔ s.ustep.toNat < (microOps o s.argr).length ∧
      s.dly ≤ delayLoad p (microOps o s.argr)[s.ustep.toNat]? ∧
      (0 < delayLoad p (microOps o s.argr)[s.ustep.toNat]? → 0 < s.dly) := by
  unfold SeqInv
  rw [h]

theorem seqInv_complete (p : Params) (o : Op) (s : State) : SeqInv p (complete o s) := by
  obtain ⟨hopr, hustep, hdly, -⟩ := complete_fields o s
  exact (seqInv_idle hopr).mpr ⟨hustep, hdly⟩

theorem seqInv_accept (p : Params) (o : Op) (arg : Byte) (s : State) : SeqInv p (accept o arg s) := by
  obtain ⟨m, n, ms, hlist, -, hdelay⟩ := microOps_head o arg
  rw [seqInv_busy (accept_opr o arg s), accept_argr, accept_ustep, accept_dly, hlist]
  simp [delayLoad_eq_zero hdelay]

theorem seqInv_loadDelay {p : Params} {o : Op} {s : State} (hb : s.opr = .busy o)
    (hlt : s.ustep.toNat < (microOps o s.argr).length) : SeqInv p (loadDelay p (microOps o s.argr) s) :=
  (seqInv_busy (s := loadDelay p (microOps o s.argr) s) hb).mpr ⟨hlt, Nat.le_refl _, id⟩

theorem seqInv_countDown {p : Params} {o : Op} {s : State} (hb : s.opr = .busy o) (hinv : SeqInv p s) (hd : 1 < s.dly) :
    SeqInv p (countDown s) := by
  obtain ⟨hlt, hle, -⟩ := (seqInv_busy hb).mp hinv
  exact (seqInv_busy (s := countDown s) hb).mpr ⟨hlt, by simp only [countDown]; omega, by simp only [countDown]; omega⟩

theorem one_lt_dly_of_stillCounting {m : MicroOp} {s : State} (h : stillCounting m s = true) : 1 < s.dly := by
  rcases delay_or_not m with ⟨d, rfl⟩ | hm
  · exact of_decide_eq_true h
  · rw [stillCounting_eq_false hm] at h
    cases h

theorem seqInv_microEdge {p : Params} {ext : Bit} {o : Op} {s : State} (hb : s.opr = .busy o) (hinv : SeqInv p s) :
    SeqInv p (microEdge p ext o s) := by
  rcases microEdge_cases p ext o s with ⟨-, hedge⟩ | ⟨m, -, ⟨hc, hedge⟩ | ⟨-, -, hedge⟩ | ⟨-, hlt, hustep, hedge⟩⟩ <;>
    rw [hedge]
  · exact seqInv_complete p o s
  · exact seqInv_countDown hb hinv (one_lt_dly_of_stillCounting hc)
  · exact seqInv_complete p o _
  · have hargr := microStep_argr ext m s
    rw [← hargr, ← hustep] at hlt
    rw [← hargr]
    exact seqInv_loadDelay ((microStep_opr ext m s).trans hb) hlt

/-- Settles O36: an edge of a busy block keeps the place (`seqInv_microEdge`), an accepted operation is at its start, a completed one
at 0, and nothing else moves `USTEP` or `DLY`; no list is longer than 39 and no delay than `T_UNIT`. -/
theorem sequencerStaysInsideItsList : Obligations.SequencerStaysInsideItsList := by
  refine ⟨fun p i s t hinv hedge => ?_, fun p s t hinv hstep => ?_, fun p s hinv => ?_⟩
  · rcases clockEdge_cases hedge with ⟨-, rfl⟩ | ⟨-, o, hb, rfl⟩ | ⟨-, hi, -, rfl⟩ | ⟨-, -, -, j, -, -, rfl⟩ |
      ⟨-, hi, -, e, -, rfl⟩
    · exact ⟨rfl, rfl⟩
    · exact seqInv_microEdge (s := pulseOver s) hb ((seqInv_busy (s := pulseOver s) hb).mpr ((seqInv_busy hb).mp hinv))
    · exact (seqInv_idle (s := idleHold s) hi).mpr ((seqInv_idle hi).mp hinv)
    · exact seqInv_accept p j.op (argOf j) s
    · exact (seqInv_idle (s := acceptIllegal s) hi).mpr ((seqInv_idle hi).mp hinv)
  · rcases step_cases s with ⟨o, -, hs⟩ | ⟨hi, -, hs⟩ | ⟨w, ws, i, hi, -, -, hs⟩ | ⟨w, ws, e, hi, -, -, hs⟩ <;>
      rw [hs] at hstep
    · cases hstep
      exact seqInv_complete p o _
    · cases hstep
      exact (seqInv_idle (s := idleHold s) hi).mpr ((seqInv_idle hi).mp hinv)
    · obtain ⟨-, rfl⟩ := exec_next (s := takeCmd s) hi hstep
      exact seqInv_complete p i.op _
    · cases hstep
      exact (seqInv_idle (s := acceptIllegal (takeCmd s)) hi).mpr ((seqInv_idle hi).mp hinv)
  · cases ho : s.opr with
    | idle =>
      obtain ⟨hustep, hdly⟩ := (seqInv_idle ho).mp hinv
      simp [hustep, hdly]
    | busy o =>
      obtain ⟨hlt, hle, -⟩ := (seqInv_busy ho).mp hinv
      have hlength := microOps_length o s.argr
      exact ⟨by omega, hle.trans (delayLoad_le p _)⟩

end Sys2Proof.Machine
end

section
/-! Commands at the port, their one pulse, and the cycles they take (30_encoding.md R57, R58; 70_reset_and_hazards.md R135,
R152, R153). -/

namespace Sys2Proof.Machine

/-! ### Acceptance -/

/-- Acceptance with its operand read off the port (30_encoding.md R57). -/
theorem accept_eq {w : CmdWord} {j : Instr} (hd : decode w = .ok j) (s : State) :
    accept j.op (argOf j) s = { s with
      opr := .busy j.op, argr := w.extractLsb' 0 8, ustep := 0#6, dly := 0, sample := 0#1, rspValid := false } := by
  obtain ⟨-, harg⟩ := (decode_eq_ok_iff w j).mp hd
  rw [accept, ← harg]
  rfl

/-- The cycle after acceptance executes the first micro-operation, whatever the other inputs. -/
theorem clockEdge_after_accept (p : Params) {i : PortIn} (hr : i.rst = false) (o : Op) (b : Byte) (s : State) :
    ∃ m u, (microOps o b)[0]? = some m ∧ clockEdge p i (accept o b s) = .next u ∧ u.ustep = 1#6 ∧
      u.tr = s.tr ++ [eventOf i.extSda m] := by
  obtain ⟨m, n, ms, hlist, hget, hdelay⟩ := microOps_head o b
  have hm : (microOps o b)[0]? = some m := by rw [hlist]; rfl
  have hlen : (microOps o b).length = ms.length + 2 := by rw [hlist]; rfl
  refine ⟨m, _, hm, clockEdge_busy hr (accept_opr o b s) p, ?_⟩
  rcases microEdge_of_not_counting (s := pulseOver (accept o b s)) hm (stillCounting_eq_false hdelay _) p i.extSda with
    ⟨hend, -⟩ | ⟨-, -, hedge⟩
  · simp [hlen] at hend
  · rw [hedge]
    refine ⟨microStep_ustep' .., (microStep_tr_eventOf ..).trans ?_⟩
    rw [eventOf_of_ne_get hget _ i.extSda]
    rfl

/-- Settles O32: a legal word leaves `accept`'s state, an illegal one `acceptIllegal`'s; a busy block's edge and its `exec` do not look
at the word. -/
theorem commandPortHandshake : Obligations.CommandPortHandshake := by
  refine ⟨cmdReady_eq_true_iff, fun p i s j hi hr hv hd hp => ?_, fun p i s e hi hr hv hd => ?_, fun s o hb => ?_,
    fun p i s hi hr hv => clockEdge_of_no_command hi hr hv p⟩
  · have hedge := clockEdge_of_legal hi hr hv hd hp p
    refine ⟨⟨_, hedge, accept_eq hd s⟩, fun i' t hr' ht => ?_⟩
    rw [hedge] at ht
    cases ht
    exact clockEdge_after_accept p hr' j.op (argOf j) s
  · rw [clockEdge_of_illegal hi hr hv hd, acceptIllegal_eq]
  · refine ⟨fun i => exec_busy hb, fun p i valid w => ?_⟩
    simp only [clockEdge, hb]

/-! ### The pulse -/

/-- An edge that answers: a response event ends what it adds to the trace, after at most one event, and the block is idle. -/
def Answers (s t : State) : Prop :=
  t.rspValid = true ∧ t.opr = .idle ∧ ∃ e, isRsp e = true ∧ (t.tr = s.tr ++ [e] ∨ ∃ m, t.tr = s.tr ++ [m, e])

/-- An edge that does not answer: it adds no response event, and at most one other. -/
def Silent (s t : State) : Prop :=
  t.rspValid = false ∧ (t.tr = s.tr ∨ ∃ m, isRsp m = false ∧ t.tr = s.tr ++ [m])

/-- On both kinds of edge the pulse is high exactly where a response event is added. -/
theorem rspValid_iff_of_answers_or_silent {s t : State} (h : Answers s t ∨ Silent s t) :
    t.rspValid = true ↔ ∃ e, isRsp e = true ∧ (t.tr = s.tr ++ [e] ∨ ∃ m, t.tr = s.tr ++ [m, e]) := by
  rcases h with ⟨hvalid, -, hresponse⟩ | ⟨hvalid, htr⟩
  · exact iff_of_true hvalid hresponse
  · refine iff_of_false (by simp [hvalid]) ?_
    rintro ⟨e, he, hadded⟩
    rcases htr with htr | ⟨m, hm, htr⟩ <;> rw [htr] at hadded
    · simp at hadded
    · rcases hadded with hadded | ⟨m', hadded⟩
      · obtain rfl : m = e := by simpa using hadded
        rw [hm] at he
        cases he
      · simp at hadded

/-- An edge that completes an operation, having carried out at most one micro-operation. -/
def Completes (o : Op) (s t : State) : Prop :=
  ∃ (u : State) (es : List Event), t = complete o u ∧ u.tr = s.tr ++ es ∧ es.length ≤ 1

theorem answers_of_completes {o : Op} {s t : State} (h : Completes o s t) : Answers s t := by
  obtain ⟨u, es, rfl, htr, hlen⟩ := h
  obtain ⟨hopr, -, -, hvalid, -, hadded, -⟩ := complete_fields o u
  refine ⟨hvalid, hopr, .rsp o (responseOf o u.sample), rfl, ?_⟩
  rw [hadded, htr]
  match es, hlen with
  | [], _ => exact .inl (by simp)
  | [m], _ => exact .inr ⟨m, by simp⟩

/-- An edge of a busy block completes its operation or is silent. -/
theorem microEdge_completes_or_silent (p : Params) (ext : Bit) (o : Op) (s : State) :
    Completes o s (microEdge p ext o (pulseOver s)) ∨ Silent s (microEdge p ext o (pulseOver s)) := by
  rcases microEdge_cases p ext o (pulseOver s) with
    ⟨-, hedge⟩ | ⟨m, -, ⟨-, hedge⟩ | ⟨-, -, hedge⟩ | ⟨-, -, -, hedge⟩⟩ <;> rw [hedge]
  · exact .inl ⟨_, [], rfl, (List.append_nil _).symm, Nat.zero_le _⟩
  · exact .inr ⟨rfl, .inl rfl⟩
  · exact .inl ⟨_, [_], rfl, microStep_tr_eventOf .., Nat.le_refl _⟩
  · exact .inr ⟨microStep_rspValid .., .inr ⟨_, not_isRsp_eventOf .., microStep_tr_eventOf ..⟩⟩

theorem busyEdge_completes_or_silent {p : Params} {i : PortIn} {s t : State} {o : Op} (hr : i.rst = false)
    (hb : s.opr = .busy o) (h : clockEdge p i s = .next t) : Completes o s t ∨ Silent s t := by
  rw [clockEdge_busy hr hb] at h
  cases h
  exact microEdge_completes_or_silent p i.extSda o s

theorem clockEdge_answers_or_silent {p : Params} {i : PortIn} {s t : State} (hr : i.rst = false)
    (h : clockEdge p i s = .next t) : Answers s t ∨ Silent s t := by
  rcases clockEdge_cases h with ⟨hr', -⟩ | ⟨-, o, hb, -⟩ | ⟨-, -, -, rfl⟩ | ⟨-, -, -, j, -, -, rfl⟩ | ⟨-, hi, -, e, -, rfl⟩
  · rw [hr] at hr'
    cases hr'
  · exact (busyEdge_completes_or_silent hr hb h).imp_left answers_of_completes
  · exact .inr ⟨rfl, .inl rfl⟩
  · exact .inr ⟨rfl, .inl rfl⟩
  · exact .inl ⟨rfl, hi, .rspIllegal 0b100#3, rfl, .inl rfl⟩

/-- The completing edge of 30_encoding.md R58. -/
theorem clockEdge_last {p : Params} {i : PortIn} {s : State} {o : Op} {m : MicroOp} (hr : i.rst = false)
    (hb : s.opr = .busy o) (hlast : s.ustep.toNat + 1 = (microOps o s.argr).length)
    (hm : (microOps o s.argr)[s.ustep.toNat]? = some m) (hd : (∃ d, m = .delay d) → s.dly ≤ 1) :
    clockEdge p i s = .next (complete o (microStep i.extSda m (pulseOver s))) := by
  have hc : stillCounting m (pulseOver s) = false := by
    rcases delay_or_not m with hdelay | hdelay
    · obtain ⟨d, rfl⟩ := hdelay
      exact decide_eq_false (Nat.not_lt.mpr (hd ⟨d, rfl⟩))
    · exact stillCounting_eq_false hdelay _
  rw [clockEdge_busy hr hb]
  rcases microEdge_of_not_counting (s := pulseOver s) hm hc p i.extSda with ⟨-, hedge⟩ | ⟨hlt, -, -⟩
  · rw [hedge]
  · simp only [pulseOver_argr, pulseOver_ustep] at hlt
    omega

/-- An edge at which an idle block is given a legal word accepts it, if it ends in a next state. -/
theorem accept_of_clockEdge {p : Params} {i : PortIn} {s t : State} {j : Instr} (hi : s.opr = .idle) (hr : i.rst = false)
    (hv : i.cmdValid = true) (hd : decode i.cmd = .ok j) (h : clockEdge p i s = .next t) :
    t = accept j.op (argOf j) s := by
  cases hp : precondition j.op s with
  | none => exact Host.Outcome.next.inj (h.symm.trans (clockEdge_of_legal hi hr hv hd hp p))
  | some r => simp [clockEdge, commandEdge, acceptEdge, hi, hr, hv, hd, hp] at h

/-- Settles O42: an edge without reset answers or is silent; the edge that ends the last micro-operation is `complete`; and an
accepted operation has `cyclesOf` cycles to its pulse, counted down by every edge (`edges_busy`). -/
theorem onePulsePerCompletion : Obligations.OnePulsePerCompletion := by
  refine ⟨fun p i s t hr hedge => ?_, fun p i s o m hr hb hlast hm hd => ?_, fun p i s t j hi hr hv hd hedge => ?_,
    fun p i s e hi hr hv hd => ?_⟩
  · have kind := clockEdge_answers_or_silent hr hedge
    refine ⟨rspValid_iff_of_answers_or_silent kind, fun hvalid => ?_, fun o hb hvalid => ?_⟩
    · rcases kind with ⟨-, hopr, -⟩ | ⟨hlow, -⟩
      · exact ⟨hopr, (cmdReady_eq_true_iff t).mpr hopr⟩
      · rw [hlow] at hvalid
        cases hvalid
    · rcases busyEdge_completes_or_silent hr hb hedge with ⟨u, es, rfl, hes, -⟩ | ⟨hlow, -⟩
      · obtain ⟨-, hustep, -, -, hrsp, htr, -⟩ := complete_fields o u
        exact ⟨hustep, ⟨_, hrsp⟩, es, by rw [htr, hrsp, hes]⟩
      · rw [hlow] at hvalid
        cases hvalid
  · obtain ⟨v, hrsp, htr⟩ := complete_microStep o i.extSda m (pulseOver s)
    obtain ⟨hopr, hustep, -, hvalid, -⟩ := complete_fields o (microStep i.extSda m (pulseOver s))
    exact ⟨_, v, clockEdge_last hr hb hlast hm hd, hopr, hustep, hvalid, hrsp, htr⟩
  · obtain rfl := accept_of_clockEdge hi hr hv hd hedge
    have hleft := cyclesLeft_accept p j s
    exact ⟨cyclesOf p j, hleft ▸ cyclesLeft_pos p j.op _, edges_busy _ _ (accept_opr ..) (accept_rspValid ..) hleft⟩
  · rw [clockEdge_of_illegal hi hr hv hd]
    exact ⟨_, rfl, rfl, (cmdReady_eq_true_iff _).mpr hi⟩

/-! ### Cycles -/

theorem ticks_one (p : Params) (s : State) : ticks p 1 s = tick p s := by
  unfold ticks
  cases tick p s <;> rfl

theorem ticks_succ {p : Params} {s t : State} (h : tick p s = .next t) (k : Nat) : ticks p (k + 1) s = ticks p k t := by
  rw [ticks, h]

theorem tick_of_no_command {s : State} (hi : s.opr = .idle) (hc : s.cmds = []) (p : Params) :
    tick p s = .next (idleHold s) := by
  have htake : takeCmd s = s := by
    cases s
    cases hc
    rfl
  simp [tick, clockEdge, closedInputs, agentsMove, hi, hc, htake]

theorem tick_of_illegal {s : State} {w : CmdWord} {ws : List CmdWord} {e : DecodeError} (hi : s.opr = .idle)
    (hc : s.cmds = w :: ws) (hd : decode w = .error e) (p : Params) : tick p s = .next (acceptIllegal (takeCmd s)) := by
  simp [tick, clockEdge, closedInputs, agentsMove, hi, hc, commandEdge, hd]

theorem tick_refused {s : State} {w : CmdWord} {ws : List CmdWord} {i : Instr} {r : Refusal} (hi : s.opr = .idle)
    (hc : s.cmds = w :: ws) (hd : decode w = .ok i) (hp : precondition i.op (takeCmd s) = some r) (p : Params) :
    tick p s = .refused r := by
  simp [tick, clockEdge, closedInputs, agentsMove, hi, hc, commandEdge, hd, acceptEdge, hp]

/-- THE CYCLES OF A COMMAND: acceptance, then R152's `N` busy cycles, then the state the whole life ends in. -/
theorem ticks_of_legal {p : Params} {s : State} {w : CmdWord} {ws : List CmdWord} {i : Instr} (hi : s.opr = .idle)
    (hc : s.cmds = w :: ws) (hd : decode w = .ok i) (hp : precondition i.op s = none) :
    ticks p (cyclesOf p i + 1) s = .next (lifeOf i (takeCmd s)) ∧
      ∀ k, 1 ≤ k → k ≤ cyclesOf p i → ∃ t, ticks p k s = .next t ∧ t.opr = .busy i.op ∧ t.rspValid = false := by
  have hrest := ticks_succ (tick_accept (p := p) hi hc hd hp)
  obtain ⟨hend, hbusy⟩ := ticks_busy (cyclesOf p i) (accept_opr i.op (argOf i) (takeCmd s)) (cyclesLeft_accept p i _)
  refine ⟨by rw [hrest, hend, finish_accept], fun k hk hk' => ?_⟩
  obtain ⟨k, rfl⟩ := Nat.exists_eq_add_of_le' hk
  rw [hrest]
  match k with
  | 0 => exact ⟨_, rfl, rfl, rfl⟩
  | k + 1 => exact hbusy (k + 1) (by omega) (by omega)

/-- Settles O39: a busy block takes `cyclesLeft` cycles, a legal word under its precondition one more than R152's `N`, and anything
else one. -/
theorem stepIsAWholeLifeOfTheCircuit : Obligations.StepIsAWholeLifeOfTheCircuit := by
  intro p s
  rcases step_cases s with ⟨o, hb, hs⟩ | ⟨hi, hc, hs⟩ | ⟨w, ws, i, hi, hc, hd, hs⟩ | ⟨w, ws, e, hi, hc, hd, hs⟩ <;> rw [hs]
  · exact ⟨_, cyclesLeft_pos p o s, (ticks_busy _ hb rfl).1⟩
  · exact ⟨1, Nat.one_pos, by rw [ticks_one, tick_of_no_command hi hc]⟩
  · have hpins : precondition i.op (takeCmd s) = precondition i.op s := precondition_pins _ _ _ (samePins_refl s)
    cases hp : precondition i.op (takeCmd s) with
    | none =>
      rw [exec_run (s := takeCmd s) hi hp]
      exact ⟨_, Nat.succ_pos _, (ticks_of_legal hi hc hd (hpins.symm.trans hp)).1⟩
    | some r =>
      rw [exec_refused (s := takeCmd s) hi hp]
      exact ⟨1, Nat.one_pos, by rw [ticks_one, tick_refused hi hc hd hp]⟩
  · exact ⟨1, Nat.one_pos, by rw [ticks_one, tick_of_illegal hi hc hd]⟩

theorem cmdReady_of_busy {s : State} {o : Op} (h : s.opr = .busy o) : cmdReady s = false := by
  simp [cmdReady, h]

/-- SENDBYTE takes what eight SENDBITs and a READBIT take, where a SENDBIT takes the same for both levels. -/
theorem sum_map_sendByteOps {f : MicroOp → Nat} {c : Nat} (h : ∀ level, ((sendBitOps level).map f).sum = c) (byte : Byte) :
    ((sendByteOps byte).map f).sum = 8 * c + (readBitOps.map f).sum := by
  simp only [sendByteOps, bitsOf, bitOrder, List.map_cons, List.map_nil, List.flatMap_cons, List.flatMap_nil,
    List.map_append, List.sum_append_nat, h, List.sum_nil]
  omega

theorem sum_cycles_claimOps (p : Params) : (claimOps.map (microCycles p)).sum = 3 + 4 * p.tHalf := by
  simp only [claimOps, microCycles, Params.cycles, Params.tUnit, List.map_cons, List.map_nil, List.sum_cons,
    List.sum_nil]
  omega

theorem sum_cycles_sendBitOps (p : Params) (level : Bit) : ((sendBitOps level).map (microCycles p)).sum = 3 + 2 * p.tHalf := by
  simp only [sendBitOps, microCycles, Params.cycles, Params.tUnit, List.map_cons, List.map_nil, List.sum_cons,
    List.sum_nil]
  omega

theorem sum_cycles_readBitOps (p : Params) : (readBitOps.map (microCycles p)).sum = 5 + 2 * p.tHalf := by
  simp only [readBitOps, microCycles, Params.cycles, List.map_cons, List.map_nil, List.sum_cons,
    List.sum_nil]
  omega

theorem sum_cycles_releaseOps (p : Params) : (releaseOps.map (microCycles p)).sum = 4 + 2 * p.tHalf := by
  simp only [releaseOps, microCycles, Params.cycles, Params.tUnit, List.map_cons, List.map_nil, List.sum_cons,
    List.sum_nil]
  omega

theorem sum_cycles_sendByteOps (p : Params) (byte : Byte) :
    ((sendByteOps byte).map (microCycles p)).sum = 29 + 18 * p.tHalf := by
  rw [sum_map_sendByteOps (sum_cycles_sendBitOps p), sum_cycles_readBitOps]
  omega

/-- Settles O40: the counts are sums over the lists, and the cycles in between are `ticks_of_legal`'s. -/
theorem cycleCounts : Obligations.CycleCounts := by
  intro p
  refine ⟨sum_cycles_claimOps p, fun level => sum_cycles_sendBitOps p _, sum_cycles_readBitOps p,
    sum_cycles_releaseOps p, sum_cycles_sendByteOps p,
    fun s w ws i hi hc hd hp => ?_, fun s w ws e hi hc hd => ?_⟩
  · obtain ⟨hend, hbusy⟩ := ticks_of_legal (p := p) hi hc hd hp
    have hpins : precondition i.op (takeCmd s) = precondition i.op s := precondition_pins _ _ _ (samePins_refl s)
    obtain ⟨-, -, hopr, -, -, hvalid⟩ := lifeOf_registers i (takeCmd s)
    refine ⟨fun k hk hk' => ?_, _, hend, ?_, (cmdReady_eq_true_iff _).mpr hopr, hvalid⟩
    · obtain ⟨t, ht, hb, hlow⟩ := hbusy k hk hk'
      exact ⟨t, ht, cmdReady_of_busy hb, hlow⟩
    · rw [step_of_legal hi hc hd, ← takeCmd_of_cons hc]
      exact exec_run hi (hpins.trans hp)
  · exact ⟨acceptIllegal (takeCmd s), by rw [ticks_one, tick_of_illegal hi hc hd], (cmdReady_eq_true_iff _).mpr hi, rfl⟩

/-! ### Lengths in timing units -/

/-- A SENDBYTE's delays are those of eight SENDBITs and a READBIT, whatever the byte. -/
theorem halfUnitsOf_sendByte (byte : Byte) : halfUnitsOf (.sendByte byte) = 2 * 9 :=
  sum_map_sendByteOps (f := halfUnits) (c := 2) (fun _ => rfl) byte

/-- Settles O41: each list's delays are counted, and a transaction's bytes take the same length each. -/
theorem lengthsInTimingUnits : Obligations.LengthsInTimingUnits := by
  have hclaim : halfUnitsOf .claim = 2 * 2 := rfl
  have hrelease : halfUnitsOf .release = 2 * 1 := rfl
  have hbytes (bytes : List Byte) : (bytes.map fun b => halfUnitsOf (.sendByte b)).sum = 2 * 9 * bytes.length := by
    simp only [halfUnitsOf_sendByte, List.map_const', List.sum_replicate_nat]
    omega
  refine ⟨hclaim, fun _ => rfl, rfl, hrelease, halfUnitsOf_sendByte, fun bytes => ?_⟩
  rw [hclaim, hrelease, hbytes]
  omega

/-! ### The protocol -/

/-- In a shape of R14 the protocol allows the commands whose precondition holds, and they leave the shape of the phase after. -/
theorem runs_of_after {ph ph' : Phase} {i : Instr} {s : State} (h : IdleShape ph s) (hph : ph.after i = some ph') :
    precondition i.op s = none ∧ IdleShape ph' (lifeOf i s) := by
  cases ph with
  | released =>
    cases i <;> cases hph
    exact ⟨precondition_claim.mpr h, by rw [lifeOf_claim]; exact ⟨⟨rfl, rfl⟩, rfl⟩⟩
  | claimed =>
    have runs (ho : i.op ≠ .claim) : precondition i.op s = none := (precondition_claimed ho).mpr h
    obtain ⟨⟨hsda, hscl⟩, -⟩ := h
    cases i with
    | claim => cases hph
    | sendBit level =>
      cases hph
      exact ⟨runs (by simp [Instr.op]), by rw [lifeOf_sendBit]; exact ⟨⟨hsda, hscl⟩, rfl⟩⟩
    | readBit =>
      cases hph
      exact ⟨runs (by decide), by rw [lifeOf_readBit]; exact ⟨⟨rfl, hscl⟩, rfl⟩⟩
    | release =>
      cases hph
      exact ⟨runs (by decide), by rw [lifeOf_release]; exact ⟨⟨rfl, rfl⟩, rfl, rfl⟩⟩
    | sendByte byte =>
      cases hph
      exact ⟨runs (by simp [Instr.op]), by rw [lifeOf_sendByte]; exact ⟨⟨rfl, hscl⟩, rfl⟩⟩

theorem broken_of_after {ph : Phase} {i : Instr} {s : State} (h : IdleShape ph s) (hph : ph.after i = none) :
    precondition i.op s ≠ none := by
  intro hp
  cases ph with
  | released =>
    have hi : i.op ≠ .claim := by cases i <;> simp [Phase.after, Instr.op] at hph ⊢
    obtain ⟨⟨hout, -⟩, -⟩ := (precondition_claimed hi).mp hp
    rw [h.1.1] at hout
    cases hout
  | claimed =>
    have hi : i = .claim := by cases i <;> simp [Phase.after] at hph ⊢
    subst hi
    obtain ⟨⟨hinp, -⟩, -⟩ := precondition_claim.mp hp
    rw [h.1.1] at hinp
    cases hinp

/-- Settles O38: by induction on the sequence; where the protocol allows its first command that runs into the next phase's shape, and
where it does not that is refused. -/
theorem protocolSequencesRunAndOthersAreRefused : Obligations.ProtocolSequencesRunAndOthersAreRefused := by
  intro is
  induction is with
  | nil => exact fun ph s _ _ => ⟨fun _ => ⟨s, rfl⟩, fun h => absurd h (by simp [inProtocol])⟩
  | cons i is ih =>
    intro ph s hi hshape
    cases hph : ph.after i with
    | none =>
      obtain ⟨r, hr⟩ := exec_refused_of_broken hi (broken_of_after hshape hph)
      simp [inProtocol, execAll, hph, hr]
    | some ph' =>
      obtain ⟨hp, hshape'⟩ := runs_of_after hshape hph
      simpa only [inProtocol, execAll, hph, exec_run hi hp] using ih ph' (lifeOf i s) (lifeOf_opr i s) hshape'

end Sys2Proof.Machine
end

section
/-! The sample of an operation in flight: where it stands in what remains, and that it is the environment's answer (20_memory.md R36;
log entries 5 and 14). -/

namespace Sys2Proof.Machine

/-- A micro-operation before the sample: it leaves an input data pin an input, and uses up no answer. -/
abbrev KeepsInput (m : MicroOp) : Prop := m ≠ .get ∧ m ≠ .cfgOut ∧ m ≠ .dir .sda .out

/-- A list with one sample, before which the data pin is not made an output and after which it is not made an input. -/
def SamplesOnce (ms : List MicroOp) : Prop :=
  ∃ pre post, ms = pre ++ .get :: post ∧ (∀ m ∈ pre, KeepsInput m) ∧ .get ∉ post ∧ .dir .sda .inp ∉ post

theorem samplesOnce_readBitOps : SamplesOnce readBitOps :=
  ⟨[.dir .sda .inp, .set .scl 1#1, .delay .half], [.delay .half, .set .scl 0#1, .dir .sda .out], rfl, by decide, by decide,
    by decide⟩

theorem samplesOnce_append {ms ns : List MicroOp} (hms : ∀ m ∈ ms, KeepsInput m) (hns : SamplesOnce ns) :
    SamplesOnce (ms ++ ns) := by
  obtain ⟨pre, post, rfl, hpre, hpost⟩ := hns
  exact ⟨ms ++ pre, post, (List.append_assoc ..).symm, fun m hm => (List.mem_append.mp hm).elim (hms m) (hpre m), hpost⟩

theorem keepsInput_of_mem_sendBitOps {level : Bit} {m : MicroOp} (h : m ∈ sendBitOps level) : KeepsInput m := by
  simp only [sendBitOps, List.mem_cons, List.not_mem_nil, or_false] at h
  rcases h with rfl | rfl | rfl | rfl <;> simp [KeepsInput]

theorem samplesOnce_sendByteOps (byte : Byte) : SamplesOnce (sendByteOps byte) := by
  refine samplesOnce_append (fun m hm => ?_) samplesOnce_readBitOps
  obtain ⟨level, -, hlevel⟩ := List.mem_flatMap.mp hm
  exact keepsInput_of_mem_sendBitOps hlevel

theorem samplesOnce_microOps {o : Op} {b : Byte} (h : .get ∈ microOps o b) : SamplesOnce (microOps o b) := by
  cases o with
  | claim => simp [microOps, claimOps] at h
  | sendBit => simp [microOps, sendBitOps] at h
  | readBit => exact samplesOnce_readBitOps
  | release => simp [microOps, releaseOps] at h
  | sendByte => exact samplesOnce_sendByteOps b

/-- What remains of such a list samples once too, if the sample remains. -/
theorem samplesOnce_drop {ms : List MicroOp} (h : SamplesOnce ms) (k : Nat) (hget : .get ∈ ms.drop k) :
    SamplesOnce (ms.drop k) := by
  obtain ⟨pre, post, rfl, hpre, hpost⟩ := h
  by_cases hk : k ≤ pre.length
  · rw [List.drop_append_of_le_length hk]
    exact ⟨_, post, rfl, fun m hm => hpre m (List.mem_of_mem_drop hm), hpost⟩
  · have past : k - pre.length = k - pre.length - 1 + 1 := by omega
    rw [List.drop_append, List.drop_eq_nil_of_le (by omega), List.nil_append, past, List.drop_succ_cons] at hget
    exact absurd (List.mem_of_mem_drop hget) hpost.1

/-- Before the sample an input data pin stays an input and the next answer stays the next. -/
theorem keepsInput_spec {m : MicroOp} (hm : KeepsInput m) (s : State) :
    nextDraw (envStep m (microStep (nextDraw s) m s)) = nextDraw s ∧
      (s.sdaDir = .inp ∨ m = .dir .sda .inp → (envStep m (microStep (nextDraw s) m s)).sdaDir = .inp) := by
  obtain ⟨hget, hcfg, hout⟩ := hm
  cases m with
  | get => exact absurd rfl hget
  | cfgOut => exact absurd rfl hcfg
  | dir p d =>
    cases p with
    | scl => exact ⟨rfl, fun h => h.elim id (by simp)⟩
    | sda =>
      cases d with
      | inp => exact ⟨rfl, fun _ => rfl⟩
      | out => exact absurd rfl hout
  | set p v => cases p <;> exact ⟨rfl, fun h => h.elim id (by simp)⟩
  | delay d => exact ⟨rfl, fun h => h.elim id (by simp)⟩

/-- The sample is the environment's answer, where the data pin is an input by then. -/
theorem runMicro_sample {pre post : List MicroOp} {s : State} (hpre : ∀ m ∈ pre, KeepsInput m) (hpost : .get ∉ post)
    (hin : s.sdaDir = .inp ∨ .dir .sda .inp ∈ pre) : (runMicro (pre ++ .get :: post) s).sample = nextDraw s := by
  induction pre generalizing s with
  | nil =>
    have hinp : s.sdaDir = .inp := hin.resolve_right (List.not_mem_nil)
    have hkept := (runMicro_events post (envStep .get (microStep (nextDraw s) .get s))
      (by rw [List.count_eq_zero.mpr hpost]; exact Nat.zero_le 1)).2 hpost
    exact hkept.trans (pinGet_of_sdaDir_inp hinp (nextDraw s))
  | cons m pre ih =>
    obtain ⟨hdraw, hdir⟩ := keepsInput_spec (hpre m List.mem_cons_self) s
    rw [List.cons_append, runMicro_cons, ih (fun n hn => hpre n (List.mem_cons_of_mem m hn)), hdraw]
    rcases hin with hinp | hmem
    · exact .inl (hdir (.inl hinp))
    · rcases List.mem_cons.mp hmem with rfl | hmem
      · exact .inl (hdir (.inr rfl))
      · exact .inr hmem

/-- The same of an operation in flight. -/
theorem runMicro_remaining_sample {o : Op} {s : State} (hget : .get ∈ remaining o s)
    (hin : s.sdaDir = .inp ∨ .dir .sda .inp ∈ remaining o s) : (runMicro (remaining o s) s).sample = nextDraw s := by
  obtain ⟨pre, post, hlist, hpre, hpost, hdir⟩ :=
    samplesOnce_drop (samplesOnce_microOps (List.mem_of_mem_drop hget)) s.ustep.toNat hget
  replace hlist : remaining o s = pre ++ .get :: post := hlist
  rw [hlist] at hin ⊢
  refine runMicro_sample hpre hpost (hin.imp_right fun hmem => ?_)
  simpa [hdir] using hmem

/-- Settles O30: the step is `finish`, whose events are those of what remains with the bit it leaves in `sample`. -/
theorem stepFinishesTheOperationInFlight : Obligations.StepFinishesTheOperationInFlight := by
  intro s o hb
  have hcount : (remaining o s).count .get ≤ 1 :=
    ((List.drop_sublist _ _).count_le _).trans (microOps_count_get o s.argr)
  obtain ⟨hevents, hheld⟩ := runMicro_events (remaining o s) s hcount
  obtain ⟨hopr, hustep, hdly, hvalid, hrsp, htr, hargr, hcmds, -⟩ := complete_fields o (runMicro (remaining o s) s)
  refine ⟨finish o s, (runMicro (remaining o s) s).sample, by simp [step, hb], hopr, hustep, hdly, hvalid,
    hargr.trans (runMicro_argr ..), hcmds.trans (runMicro_cmds ..), hrsp, ?_, complete_pins o _, hheld,
    runMicro_remaining_sample⟩
  rw [finish, htr, hevents]
  rfl

end Sys2Proof.Machine
end

section
/-! The two lines while an operation runs, whatever the environment does (20_memory.md R31, R37; 40_bit_transport.md R62 to R69;
41_byte_framer.md R86). -/

namespace Sys2Proof.Machine

/-! ### States in which no line moves -/

/-- What is seen is seen state by state. -/
theorem seen_eq_flatMap (ts : Timeline) (ss : List State) :
    seen ts ss = (ts.zip ss).flatMap fun p => p.1.map fun e => levels e p.2 := by
  induction ts generalizing ss with
  | nil => rfl
  | cons es ts ih =>
    cases ss with
    | nil => rfl
    | cons s ss => rw [seen_cons, ih, List.zip_cons_cons, List.flatMap_cons]

/-- While the block is in a state, some levels of the environment pass, and the lines hold the levels `b`. -/
def HoldsLevels (p : List Env × State) (b : Bit × Bit) : Prop := p.1 ≠ [] ∧ ∀ e ∈ p.1, levels e p.2 = b

section
variable {r : Bit × Bit → Bit × Bit → Bool} (hr : ∀ b, r b b = false)
include hr

theorem countFrom_of_held {ps : List (List Env × State)} {bs : List (Bit × Bit)} (h : List.Forall₂ HoldsLevels ps bs)
    (a : Bit × Bit) : countFrom r a (ps.flatMap fun p => p.1.map fun e => levels e p.2) = countFrom r a bs := by
  induction h generalizing a with
  | nil => rfl
  | @cons p b ps bs hp _ ih =>
    obtain ⟨n, hn⟩ := moments_const hp.1 hp.2
    rw [List.flatMap_cons, hn, countFrom_const hr, ih, countFrom]

/-- Where the lines hold their levels in every state, only the moves from state to state count. -/
theorem countEvents_of_held {ts : Timeline} {ss : List State} {bs : List (Bit × Bit)}
    (h : List.Forall₂ HoldsLevels (ts.zip ss) bs) : countEvents r (seen ts ss) = countEvents r bs := by
  rw [seen_eq_flatMap]
  generalize ts.zip ss = ps at h
  cases h with
  | nil => rfl
  | @cons p b ps bs hp hps =>
    obtain ⟨n, hn⟩ := moments_const hp.1 hp.2
    have hrest := countFrom_of_held hr hps b
    rw [List.flatMap_cons, hn, countEvents, ← hrest, List.replicate_succ, List.cons_append, countEvents]
    cases n with
    | zero => rfl
    | succ n => simp [countFrom_const hr, hr]

end

theorem isStart_self (b : Bit × Bit) : isStart b b = false := by revert b; decide
theorem isStop_self (b : Bit × Bit) : isStop b b = false := by revert b; decide
theorem isRise_self (b : Bit × Bit) : isRise b b = false := by revert b; decide
theorem isFall_self (b : Bit × Bit) : isFall b b = false := by revert b; decide

theorem pulses_of_no_rise {ls : List (Bit × Bit)} (h : countEvents isRise ls = 0) : pulses ls = [] := by
  cases ls with
  | nil => rfl
  | cons a ls => exact pulsesFrom_no_rise ls a h

theorem pulses_of_no_fall {ls : List (Bit × Bit)} (h : countEvents isFall ls = 0) : pulses ls = [] := by
  cases ls with
  | nil => rfl
  | cons a ls => exact pulsesFrom_no_fall ls none a h

theorem levels_of_claimed {s : State} (h : Claimed s) (e : Env) : levels e s = (s.sdaOut, s.sclOut) := by
  rw [levels, line_of_dirOf_out (p := .sda) h.1, line_of_dirOf_out (p := .scl) h.2]
  rfl

theorem levels_of_released {s : State} (h : Released s) (e : Env) : levels e s = (e.sda, e.scl) := by
  rw [levels, line_of_released h, line_of_released h]
  rfl

/-- The levels of the lines in CLAIM's six states (40_bit_transport.md R62). -/
theorem claimOps_held {s : State} (h : IdleShape .released s) {ts : Timeline} (hfits : fits ts claimOps)
    (hup : ∀ e ∈ ts.headD [], e = pulledUp) :
    List.Forall₂ HoldsLevels (ts.zip (s :: statesAfter claimOps s))
      [(1#1, 1#1), (1#1, 1#1), (0#1, 1#1), (0#1, 1#1), (0#1, 0#1), (0#1, 0#1)] := by
  obtain ⟨hrel, hsda, hscl⟩ := h
  obtain ⟨s1, s2, s3, s4, s5, hstates, k1, k2, k3, k4, k5⟩ := claimOps_levels s
  rw [hsda, hscl] at k1
  rw [hscl] at k2 k3
  obtain ⟨hlen, hne⟩ := hfits
  match ts, hlen with
  | [g0, g1, g2, g3, g4, g5], _ =>
    have hne (g) (hg : g ∈ [g0, g1, g2, g3, g4, g5]) := hne g hg
    rw [hstates]
    refine .cons ⟨hne g0 (by simp), fun e he => ?_⟩ (.cons ⟨hne g1 (by simp), fun e _ => k1 e⟩
      (.cons ⟨hne g2 (by simp), fun e _ => k2 e⟩ (.cons ⟨hne g3 (by simp), fun e _ => k3 e⟩
        (.cons ⟨hne g4 (by simp), fun e _ => k4 e⟩ (.cons ⟨hne g5 (by simp), fun e _ => k5 e⟩ .nil)))))
    rw [hup e he]
    exact levels_of_released hrel pulledUp

/-- Settles O43: after step 0 the lines are the latches', so CLAIM's moves are the six levels of `claimOps_held`. -/
theorem claimMakesOneStart : Obligations.ClaimMakesOneStart := by
  intro s h
  refine ⟨levels_of_released h.1 pulledUp, ?_, fun ts hfits hup => ?_⟩
  · obtain ⟨-, hsda, hscl⟩ := h
    obtain ⟨s1, s2, s3, s4, s5, hstates, k1, k2, k3, k4, k5⟩ := claimOps_levels s
    rw [wave, hstates]
    simp [claimOps, k1, k2, k3, k4, k5, hsda, hscl]
  · have held := claimOps_held h hfits hup
    exact ⟨countEvents_of_held isStart_self held, countEvents_of_held isStop_self held,
      pulses_of_no_rise (countEvents_of_held isRise_self held)⟩

/-- The levels of the lines in RELEASE's six states, where the environment lets the lines go (40_bit_transport.md R69). -/
theorem releaseOps_held {s : State} (h : IdleShape .claimed s) {ts : Timeline} (hfits : fits ts releaseOps)
    (hup : ∀ es ∈ ts.drop 2, ∀ e ∈ es, e = pulledUp) :
    List.Forall₂ HoldsLevels (ts.zip (s :: statesAfter releaseOps s))
      [(s.sdaOut, 0#1), (s.sdaOut, 1#1), (s.sdaOut, 1#1), (s.sdaOut, 1#1), (1#1, 1#1), (1#1, 1#1)] := by
  obtain ⟨hc, hscl⟩ := h
  obtain ⟨s1, s2, s3, s4, s5, hstates, k1, k2, k3, k4, k5⟩ := releaseOps_levels hc
  obtain ⟨hlen, hne⟩ := hfits
  match ts, hlen with
  | [g0, g1, g2, g3, g4, g5], _ =>
    have hne (g) (hg : g ∈ [g0, g1, g2, g3, g4, g5]) := hne g hg
    have hup (g) (hg : g ∈ [g2, g3, g4, g5]) (e) (he : e ∈ g) : e = pulledUp := hup g hg e he
    rw [hstates]
    refine .cons ⟨hne g0 (by simp), fun e _ => ?_⟩ (.cons ⟨hne g1 (by simp), fun e _ => k1 e⟩
      (.cons ⟨hne g2 (by simp), fun e he => ?_⟩ (.cons ⟨hne g3 (by simp), fun e he => ?_⟩
        (.cons ⟨hne g4 (by simp), fun e he => ?_⟩ (.cons ⟨hne g5 (by simp), fun e he => ?_⟩ .nil)))))
    · rw [levels_of_claimed hc, hscl]
    · rw [k2, hup g2 (by simp) e he]; rfl
    · rw [k3, hup g3 (by simp) e he]; rfl
    · rw [k4, hup g4 (by simp) e he]; rfl
    · rw [k5, hup g5 (by simp) e he]; rfl

/-- The line events of RELEASE's levels, for each data latch. -/
theorem releaseOps_events (d : Bit) :
    let bs := [(d, 0#1), (d, 1#1), (d, 1#1), (d, 1#1), (1#1, 1#1), (1#1, 1#1)]
    countEvents isStop bs = (if d = 0#1 then 1 else 0) ∧ countEvents isStart bs = 0 ∧ countEvents isRise bs = 1 ∧
      countEvents isFall bs = 0 := by
  revert d; decide

/-- Settles O46: SENDBYTE leaves bit 0 in the latch; RELEASE's moves are the six levels of `releaseOps_held`. -/
theorem releaseMakesAStopOnlyFromLow : Obligations.ReleaseMakesAStopOnlyFromLow := by
  refine ⟨fun byte s hi h => ?_, fun s h => ⟨?_, fun ts hfits hup => ?_⟩⟩
  · obtain ⟨hp, hshape⟩ := runs_of_after (i := .sendByte byte) h rfl
    exact ⟨_, exec_run hi hp, hshape, by rw [lifeOf_sendByte]⟩
  · obtain ⟨s1, s2, s3, s4, s5, hstates, k1, k2, k3, k4, k5⟩ := releaseOps_levels h.1
    rw [wave, hstates]
    simp [releaseOps, k1, k2, k3, k4, k5, pulledUp]
  · have held := releaseOps_held h hfits hup
    obtain ⟨hstop, hstart, hrise, hfall⟩ := releaseOps_events s.sdaOut
    exact ⟨(countEvents_of_held isStop_self held).trans hstop, (countEvents_of_held isStart_self held).trans hstart,
      (countEvents_of_held isRise_self held).trans hrise,
      pulses_of_no_fall ((countEvents_of_held isFall_self held).trans hfall)⟩

/-- Settles O55: a state's moments are the environment's moments seen through the pins' directions. -/
theorem environmentMovesUndrivenLines : Obligations.EnvironmentMovesUndrivenLines := by
  intro es s
  have hseen : seen [es] [s] = es.map fun e => levels e s := List.append_nil _
  have undriven (h : Released s) : seen [es] [s] = es.map fun e => (e.sda, e.scl) := by
    simp only [hseen, levels_of_released h]
  refine ⟨undriven, fun hsda hscl => ?_, fun hsda hscl => ?_, fun h => ?_, fun h c hes => ?_⟩
  · simp only [hseen, levels, line_of_dirOf_inp (p := .sda) hsda, line_of_dirOf_out (p := .scl) hscl]
    rfl
  · simp only [hseen, levels, line_of_dirOf_out (p := .sda) hsda, line_of_dirOf_inp (p := .scl) hscl]
    rfl
  · simp only [hseen, levels_of_claimed h]
  · rw [undriven h, hes]
    rcases bit_cases c with rfl | rfl <;> decide

end Sys2Proof.Machine
end

section
/-! The operations as clock pulses on the lines, however the environment moves (20_memory.md R37; 40_bit_transport.md R64, R67;
41_byte_framer.md R86). -/

namespace Sys2Proof.Machine

/-! ### Pulses one after the other -/

/-- A whole clock pulse: the data line's levels before the rise, in the high phase, and from the fall on. -/
structure Pulse where
  before : List Bit
  high : List Bit
  behind : List Bit
  high_ne : high ≠ []
  behind_ne : behind ≠ []

def Pulse.moments (q : Pulse) : List (Bit × Bit) := pulseMoments q.before q.high q.behind

/-- The high phase of a pulse as moments of the two lines. -/
def Pulse.highMoments (q : Pulse) : List (Bit × Bit) := q.high.map fun b => (b, 1#1)

theorem ByPulse.pulses {r : Bit × Bit → Bit × Bit → Bool} {u v : Nat} (hr : ByPulse r u v) (qs : List Pulse) (d : Bit) :
    countFrom r (d, 0#1) (qs.flatMap Pulse.moments) =
      qs.length * (u + v) + (qs.map fun q => countEvents r q.highMoments).sum := by
  induction qs generalizing d with
  | nil => simp [countFrom]
  | cons q qs ih =>
    rw [List.flatMap_cons, Pulse.moments, hr.pulse rfl d q.before q.high_ne q.behind_ne, ih, List.length_cons, List.map_cons,
      List.sum_cons, Nat.succ_mul, Pulse.highMoments]
    omega

theorem pulsesFrom_pulses (qs : List Pulse) (d : Bit) :
    pulsesFrom none (d, 0#1) (qs.flatMap Pulse.moments) = qs.map Pulse.high := by
  induction qs generalizing d with
  | nil => rfl
  | cons q qs ih =>
    rw [List.flatMap_cons, Pulse.moments, pulsesFrom_pulse rfl d q.before q.high_ne q.behind_ne, ih, List.map_cons]

/-- From a Claimed bus with the clock low a list gives these pulses on the lines. -/
def GivesPulses (ts : Timeline) (ms : List MicroOp) (s : State) (qs : List Pulse) : Prop :=
  ∃ ds : List Bit, ds ≠ [] ∧ onLines ts ms s = (ds.map fun b => (b, 0#1)) ++ qs.flatMap Pulse.moments

section
variable {ts : Timeline} {ms : List MicroOp} {s : State} {qs : List Pulse} (h : GivesPulses ts ms s qs)
include h

theorem countIn_of_givesPulses {r : Bit × Bit → Bit × Bit → Bool} {u v : Nat} (hr : ByPulse r u v) :
    countIn r ts ms s = qs.length * (u + v) + (qs.map fun q => countEvents r q.highMoments).sum := by
  obtain ⟨ds, hds, hlines⟩ := h
  rw [countIn, hlines, hr.start_low 0#1 hds, hr.pulses]

theorem pulsesIn_of_givesPulses : pulsesIn ts ms s = qs.map Pulse.high := by
  obtain ⟨ds, hds, hlines⟩ := h
  rw [pulsesIn, hlines, pulses_low 0#1 hds, pulsesFrom_pulses]

theorem rises_of_givesPulses : countIn isRise ts ms s = qs.length := by
  have none_high (q : Pulse) : countEvents isRise q.highMoments = 0 := countEvents_high (by decide) q.high
  simp [countIn_of_givesPulses h byPulse_isRise, none_high]

theorem falls_of_givesPulses : countIn isFall ts ms s = qs.length := by
  have none_high (q : Pulse) : countEvents isFall q.highMoments = 0 := countEvents_high (by decide) q.high
  simp [countIn_of_givesPulses h byPulse_isFall, none_high]

/-- START and STOP happen in the high phases alone. -/
theorem moves_of_givesPulses {r : Bit × Bit → Bit × Bit → Bool} (hr : ByPulse r 0 0) :
    countIn r ts ms s = (qs.map fun q => countEvents r q.highMoments).sum := by
  rw [countIn_of_givesPulses h hr]
  omega

end

/-- On a Claimed bus with the clock low the moments before the first step are a low phase. -/
theorem givesPulses_of_seen {s : State} (h : IdleShape .claimed s) {g : List Env} (hg : g ≠ []) {ts : Timeline}
    {ms : List MicroOp} {qs : List Pulse} (hseen : seen ts (statesAfter ms s) = qs.flatMap Pulse.moments) :
    GivesPulses (g :: ts) ms s qs := by
  refine ⟨g.map fun _ => s.sdaOut, by simp [hg], ?_⟩
  rw [onLines, seen_cons, hseen, ← moments_eq fun e => (levels_of_claimed h.1 e).trans (by rw [h.2])]

/-! ### Pulses that hold a level -/

/-- The data line holds the level `b` through the pulse's high phase. -/
def Pulse.Holds (q : Pulse) (b : Bit) : Prop := ∀ x ∈ q.high, x = b

theorem Pulse.countEvents_of_holds {q : Pulse} {b : Bit} (h : q.Holds b) {r : Bit × Bit → Bit × Bit → Bool}
    (hr : ∀ b, r b b = false) : countEvents r q.highMoments = 0 := by
  refine countEvents_const hr (b := (b, 1#1)) fun x hx => ?_
  obtain ⟨c, hc, rfl⟩ := List.mem_map.mp hx
  rw [h c hc]

/-- Pulses that hold their levels carry them, and nothing else, to the slave. -/
theorem mayTake_iff_of_holds {qs : List Pulse} {levels : List Bit} (h : List.Forall₂ Pulse.Holds qs levels) (bits : List Bit) :
    mayTake (qs.map Pulse.high) bits ↔ bits = levels := by
  induction h generalizing bits with
  | nil =>
    unfold mayTake
    cases bits <;> simp
  | @cons q b qs levels hq _ ih =>
    rw [List.map_cons, mayTake_cons q.high_ne hq]
    simp only [ih]
    exact ⟨fun ⟨_, hbits, hrest⟩ => hrest ▸ hbits, fun hbits => ⟨levels, hbits, rfl⟩⟩

theorem sum_countEvents_of_holds {qs : List Pulse} {levels : List Bit} (h : List.Forall₂ Pulse.Holds qs levels)
    {r : Bit × Bit → Bit × Bit → Bool} (hr : ∀ b, r b b = false) :
    (qs.map fun q => countEvents r q.highMoments).sum = 0 := by
  induction h with
  | nil => rfl
  | @cons q b qs levels hq _ ih => rw [List.map_cons, List.sum_cons, q.countEvents_of_holds hq hr, ih]

/-! ### SENDBIT -/

/-- The pulse of a SENDBIT, in terms of the environment's moments after each step. -/
theorem seen_sendBitOps_pulse (level : Bit) {s : State} (h : IdleShape .claimed s) {g1 g2 g3 g4 : List Env} (h2 : g2 ≠ [])
    (h4 : g4 ≠ []) (ts : Timeline) (ss : List State) :
    ∃ q : Pulse, q.Holds level ∧
      seen (g1 :: g2 :: g3 :: g4 :: ts) (statesAfter (sendBitOps level) s ++ ss) = q.moments ++ seen ts ss := by
  refine ⟨⟨g1.map fun _ => level, (g2 ++ g3).map fun _ => level, g4.map fun _ => level, by simp [h2], by simp [h4]⟩, ?_,
    seen_sendBitOps level h.1 h.2 g1 g2 g3 g4 ts ss⟩
  intro x hx
  obtain ⟨_, _, rfl⟩ := List.mem_map.mp hx
  rfl

theorem sendBitOps_givesPulses (level : Bit) {s : State} (h : IdleShape .claimed s) {ts : Timeline}
    (hfits : fits ts (sendBitOps level)) : ∃ q : Pulse, q.Holds level ∧ GivesPulses ts (sendBitOps level) s [q] := by
  obtain ⟨hlen, hne⟩ := hfits
  match ts, hlen with
  | [g0, g1, g2, g3, g4], _ =>
    obtain ⟨q, hq, hseen⟩ := seen_sendBitOps_pulse level h (hne g2 (by simp)) (hne g4 (by simp)) (g1 := g1) (g3 := g3) [] []
    rw [List.append_nil] at hseen
    exact ⟨q, hq, givesPulses_of_seen h (hne g0 (by simp)) hseen⟩

/-- Settles O44: one pulse that holds the level. -/
theorem sendBitGivesOnePulse : Obligations.SendBitGivesOnePulse := by
  intro e level s h
  refine ⟨?_, fun ts hfits => ?_⟩
  · obtain ⟨s1, s2, s3, s4, hstates, k1, k2, k3, k4⟩ := sendBitOps_levels level h.1
    rw [wave, hstates]
    simp [sendBitOps, k1, k2, k3, k4, h.2]
  · obtain ⟨q, hq, hpulses⟩ := sendBitOps_givesPulses level h hfits
    have hheld : List.Forall₂ Pulse.Holds [q] [level] := .cons hq .nil
    have hin := pulsesIn_of_givesPulses hpulses
    refine ⟨rises_of_givesPulses hpulses, falls_of_givesPulses hpulses, ⟨q.high, hin, q.high_ne, hq⟩, fun bits => ?_, ?_, ?_⟩
    · rw [hin]
      exact mayTake_iff_of_holds hheld bits
    · rw [moves_of_givesPulses hpulses byPulse_isStart, sum_countEvents_of_holds hheld isStart_self]
    · rw [moves_of_givesPulses hpulses byPulse_isStop, sum_countEvents_of_holds hheld isStop_self]

/-! ### READBIT, alone or after SENDBITs -/

/-- A list that pulses out some levels and then reads a bit: READBIT itself, and SENDBYTE. -/
def sendThenRead (levels : List Bit) : List MicroOp := levels.flatMap sendBitOps ++ readBitOps

theorem sendThenRead_cons (level : Bit) (levels : List Bit) :
    sendThenRead (level :: levels) = sendBitOps level ++ sendThenRead levels := by
  rw [sendThenRead, List.flatMap_cons, List.append_assoc, sendThenRead]

theorem idleShape_runMicro_sendBitOps (level : Bit) {s : State} (h : IdleShape .claimed s) :
    IdleShape .claimed (runMicro (sendBitOps level) s) := by
  rw [runMicro_sendBitOps]
  exact ⟨h.1, rfl⟩

/-- The pulses of such a list: the levels' hold them, the last has the environment's levels. -/
theorem seen_sendThenRead (levels : List Bit) {s : State} (h : IdleShape .claimed s) {ts : Timeline}
    (hlen : ts.length = 4 * levels.length + 7) (hne : ∀ es ∈ ts, es ≠ []) :
    ∃ (qs : List Pulse) (q : Pulse), seen ts (statesAfter (sendThenRead levels) s) = (qs ++ [q]).flatMap Pulse.moments ∧
      List.Forall₂ Pulse.Holds qs levels ∧ q.high = sdaDuring ts (4 * levels.length + 1) 4 := by
  induction levels generalizing s ts with
  | nil =>
    match ts, hlen with
    | [g1, g2, g3, g4, g5, g6, g7], _ =>
      have h2 : g2 ≠ [] := hne g2 (by simp)
      have h6 : g6 ≠ [] := hne g6 (by simp)
      have hseen := seen_readBitOps h.1.2 h.2 g1 g2 g3 g4 g5 g6 g7 [] []
      rw [List.append_nil] at hseen
      refine ⟨[], ⟨g1.map Env.sda, (g2 ++ (g3 ++ (g4 ++ g5))).map Env.sda, g6.map Env.sda ++ g7.map fun _ => s.sdaOut,
        by simp [h2], by simp [h6]⟩, hseen, .nil, ?_⟩
      simp [sdaDuring]
  | cons level levels ih =>
    match ts, hlen with
    | g1 :: g2 :: g3 :: g4 :: ts, hlen =>
      obtain ⟨q, hq, hseen⟩ := seen_sendBitOps_pulse level h (hne g2 (by simp)) (hne g4 (by simp)) (g1 := g1) (g3 := g3) ts
        (statesAfter (sendThenRead levels) (runMicro (sendBitOps level) s))
      obtain ⟨qs, last, hrest, hheld, hhigh⟩ := ih (ts := ts) (idleShape_runMicro_sendBitOps level h)
        (by simp only [List.length_cons] at hlen; omega) fun es hes => hne es (by simp [hes])
      refine ⟨q :: qs, last, ?_, .cons hq hheld, hhigh⟩
      rw [sendThenRead_cons, statesAfter_append, hseen, hrest, List.cons_append, List.flatMap_cons]

theorem sendThenRead_length (levels : List Bit) : (sendThenRead levels).length = 4 * levels.length + 7 := by
  induction levels with
  | nil => rfl
  | cons level levels ih =>
    rw [sendThenRead_cons, List.length_append, ih, List.length_cons]
    simp only [sendBitOps, List.length_cons, List.length_nil]
    omega

/-- WHAT SUCH A LIST DOES ON THE LINES: a pulse for each level and one for the read bit, whose high phase is the environment's. -/
theorem sendThenRead_givesPulses (levels : List Bit) {s : State} (h : IdleShape .claimed s) {ts : Timeline}
    (hfits : fits ts (sendThenRead levels)) :
    ∃ (qs : List Pulse) (q : Pulse), GivesPulses ts (sendThenRead levels) s (qs ++ [q]) ∧
      List.Forall₂ Pulse.Holds qs levels ∧ q.high = sdaDuring ts (4 * levels.length + 2) 4 := by
  obtain ⟨hlen, hne⟩ := hfits
  rw [sendThenRead_length] at hlen
  match ts, hlen with
  | g :: ts, hlen =>
    obtain ⟨qs, q, hseen, hheld, hhigh⟩ := seen_sendThenRead levels h (ts := ts) (by simpa using hlen)
      fun es hes => hne es (List.mem_cons_of_mem g hes)
    exact ⟨qs, q, givesPulses_of_seen h (hne g List.mem_cons_self) hseen, hheld, hhigh⟩

section
variable {ts : Timeline} {ms : List MicroOp} {s : State} {qs : List Pulse} {q : Pulse} {levels : List Bit}
  (h : GivesPulses ts ms s (qs ++ [q])) (hheld : List.Forall₂ Pulse.Holds qs levels)
include h hheld

/-- STARTs and STOPs are the environment's moves in the last pulse's high phase. -/
theorem moves_of_last_pulse {r : Bit × Bit → Bit × Bit → Bool} (hr : ByPulse r 0 0) (hself : ∀ b, r b b = false) :
    countIn r ts ms s = countEvents r q.highMoments := by
  rw [moves_of_givesPulses h hr, List.map_append, List.sum_append_nat, sum_countEvents_of_holds hheld hself]
  simp

theorem pulsesIn_of_last_pulse : ∃ hss, pulsesIn ts ms s = hss ++ [q.high] ∧
    List.Forall₂ (fun hs b => hs ≠ [] ∧ ∀ x ∈ hs, x = b) hss levels := by
  refine ⟨qs.map Pulse.high, by rw [pulsesIn_of_givesPulses h, List.map_append]; rfl, ?_⟩
  exact List.forall₂_map_left_iff.mpr (hheld.imp fun q b hq => ⟨q.high_ne, hq⟩)

/-- Where the environment holds a level in the last pulse, the slave's bits are the levels and that one. -/
theorem mayTake_of_last_pulse {a : Bit} (ha : q.Holds a) (bits : List Bit) :
    mayTake (pulsesIn ts ms s) bits ↔ bits = levels ++ [a] := by
  rw [pulsesIn_of_givesPulses h]
  exact mayTake_iff_of_holds (List.rel_append hheld (.cons ha .nil)) bits

end

/-- The data line is driven with the latch again at READBIT's end, against a slave that pulls low if the latch is 1. -/
theorem contends_after_readBitOps (e : Env) (s : State) :
    contends e .sda (runMicro readBitOps s) = true ↔ s.sdaOut = 1#1 ∧ e.sda = 0#1 := by
  rw [runMicro_readBitOps]
  simp [contends, dirOf, latchOf, Env.level]

/-- Settles O45: the levels are those of `readBitOps_levels`; on the lines READBIT is one pulse, the environment's. -/
theorem readBitLevels : Obligations.ReadBitLevels := by
  intro e s h
  refine ⟨?_, contends_after_readBitOps e s, fun ts hfits => ?_⟩
  · obtain ⟨s1, s2, s3, s4, s5, s6, s7, hstates, k1, k2, k3, k4, k5, k6, k7⟩ := readBitOps_levels h.1.2
    rw [wave, hstates]
    simp [readBitOps, k1, k2, k3, k4, k5, k6, k7, h.2]
  · obtain ⟨qs, q, hpulses, hheld, hhigh⟩ := sendThenRead_givesPulses [] h (ts := ts) hfits
    obtain rfl : qs = [] := List.forall₂_nil_right_iff.mp hheld
    have hstart := moves_of_last_pulse hpulses hheld byPulse_isStart isStart_self
    have hstop := moves_of_last_pulse hpulses hheld byPulse_isStop isStop_self
    have hhigh : q.high = sdaDuring ts 2 4 := hhigh
    rw [← hhigh]
    refine ⟨rises_of_givesPulses hpulses, falls_of_givesPulses hpulses, q.high_ne, pulsesIn_of_givesPulses hpulses, hstart,
      hstop, fun a ha => ⟨mayTake_of_last_pulse hpulses hheld ha, ?_, ?_⟩⟩
    · exact hstart.trans (q.countEvents_of_holds ha isStart_self)
    · exact hstop.trans (q.countEvents_of_holds ha isStop_self)

/-- The data line after SENDBYTE (41_byte_framer.md R86). -/
theorem line_sda_after_sendByteOps (e : Env) (byte : Byte) (s : State) :
    line e .sda (runMicro (sendByteOps byte) s) = byte.extractLsb' 0 1 := by
  rw [runMicro_sendByteOps, line_of_dirOf_out rfl, ← bitOf_eq]
  rfl

theorem bitsOf_eq (byte : Byte) : bitsOf byte =
    [byte.extractLsb' 7 1, byte.extractLsb' 6 1, byte.extractLsb' 5 1, byte.extractLsb' 4 1,
      byte.extractLsb' 3 1, byte.extractLsb' 2 1, byte.extractLsb' 1 1, byte.extractLsb' 0 1] := by
  simp only [bitsOf, bitOrder, List.map_cons, List.map_nil, bitOf_eq]

/-- Settles O47: on the lines SENDBYTE is eight pulses that hold the byte's bits, and a ninth, the environment's. -/
theorem sendByteOnTheWire : Obligations.SendByteOnTheWire := by
  intro byte s h
  refine ⟨fun e => line_sda_after_sendByteOps e byte s, fun ts hfits => ?_⟩
  obtain ⟨qs, q, hpulses, hheld, hhigh⟩ := sendThenRead_givesPulses (bitsOf byte) h (ts := ts) hfits
  have hhigh : q.high = sdaDuring ts 34 4 := hhigh
  have hcount : (qs ++ [q]).length = 9 := by rw [List.length_append, hheld.length_eq]; rfl
  rw [bitsOf_eq] at hheld
  have hstart := moves_of_last_pulse hpulses hheld byPulse_isStart isStart_self
  have hstop := moves_of_last_pulse hpulses hheld byPulse_isStop isStop_self
  rw [← hhigh]
  refine ⟨(rises_of_givesPulses hpulses).trans hcount, (falls_of_givesPulses hpulses).trans hcount, q.high_ne,
    pulsesIn_of_last_pulse hpulses hheld, hstart, hstop,
    fun a ha => ⟨mayTake_of_last_pulse hpulses hheld ha, ?_, ?_⟩⟩
  · exact hstart.trans (q.countEvents_of_holds ha isStart_self)
  · exact hstop.trans (q.countEvents_of_holds ha isStop_self)

end Sys2Proof.Machine
end

section
/-! The documented host: its bytes, where it stops, and that it always lets the bus go (42_host_command_layer.md R91 to R103). -/

namespace Sys2Proof.Machine

/-! ### The address commands -/

theorem pageCmd_of_le {page : Nat} (h : page ≤ 7) : pageCmd page = some (0xB0#8 + BitVec.ofNat 8 page) := if_pos h

theorem columnCmds_of_le {c : Nat} (h : c ≤ 131) :
    columnCmds c = some (0x00#8 + BitVec.ofNat 8 (c % 16), 0x10#8 + BitVec.ofNat 8 (c / 16)) := if_pos h

/-- A base byte plus a small offset does not overflow. -/
theorem toNat_add_ofNat {base : Byte} {n : Nat} (h : base.toNat + n < 256) : (base + BitVec.ofNat 8 n).toNat = base.toNat + n := by
  rw [BitVec.toNat_add, BitVec.toNat_ofNat]
  omega

/-- Settles O49: inside the range the bytes are base plus offset without overflow, outside it there are none. -/
theorem addressCommandBytes : Obligations.AddressCommandBytes := by
  refine ⟨fun page h => ⟨_, pageCmd_of_le h, ?_⟩, fun page h => if_neg (Nat.not_le.mpr h),
    fun c h => ⟨_, _, columnCmds_of_le h, ?_, ?_⟩, fun c h => if_neg (Nat.not_le.mpr h)⟩
  · exact toNat_add_ofNat (base := 0xB0#8) (show 0xB0 + page < 256 by omega)
  · exact toNat_add_ofNat (base := 0x00#8) (show 0 + c % 16 < 256 by omega)
  · exact toNat_add_ofNat (base := 0x10#8) (show 0x10 + c / 16 < 256 by omega)

/-! ### The byte streams -/

/-- The bytes of one page (42_host_command_layer.md R97). -/
def pageBytes (page : Nat) : List Byte :=
  [0x80#8, 0xB0#8 + BitVec.ofNat 8 page, 0x80#8, 0x00#8, 0x80#8, 0x10#8, 0x80#8, 0xE0#8] ++
    (List.replicate 132 [0xC0#8, 0x00#8]).flatten ++ [0x80#8, 0xEE#8]

theorem length_replicate_pair_flatten (n : Nat) : (List.replicate n [0xC0#8, 0x00#8]).flatten.length = n * 2 := by
  rw [List.length_flatten, List.map_replicate, List.sum_replicate_nat]
  rfl

theorem count_replicate_pair_flatten (n : Nat) : (List.replicate n [0xC0#8, 0x00#8]).flatten.count 0xC0#8 = n := by
  rw [List.count_flatten, List.map_replicate, List.sum_replicate_nat]
  exact Nat.mul_one n

theorem pageBytes_length (page : Nat) : (pageBytes page).length = 274 := by
  rw [pageBytes, List.length_append, List.length_append, length_replicate_pair_flatten]
  rfl

/-- The data control bytes of a page are those of its zeros: a page command is none. -/
theorem pageBytes_count {page : Nat} (h : page < 8) : (pageBytes page).count 0xC0#8 = 132 := by
  have hpage : 0xB0#8 + BitVec.ofNat 8 page ≠ 0xC0#8 := by bv_omega
  rw [pageBytes, List.count_append, List.count_append, count_replicate_pair_flatten]
  simp [hpage]

theorem clearPage_eq (page : Nat) (s : State) : clearPage page s = hostSendBytes (pageBytes page) s := by
  simp only [clearPage, sendCommand_eq, sendZeros_eq, hostThen_sendBytes]
  rfl

theorem clearPages_eq (pages : List Nat) (s : State) : clearPages pages s = hostSendBytes (pages.flatMap pageBytes) s := by
  induction pages generalizing s with
  | nil => rfl
  | cons page pages ih =>
    have hrest : clearPages pages = hostSendBytes (pages.flatMap pageBytes) := funext ih
    rw [clearPages, hrest, clearPage_eq, hostThen_sendBytes, List.flatMap_cons]

theorem clearDisplay_eq (s : State) : clearDisplay s = hostSendBytes ((List.range 8).flatMap pageBytes) s := by
  unfold clearDisplay pageCount
  exact clearPages_eq (List.range 8) s

theorem clearBytes_length : ((List.range 8).flatMap pageBytes).length = 2192 := by
  rw [List.length_flatMap]
  simp only [pageBytes_length]
  rfl

theorem clearBytes_count : ((List.range 8).flatMap pageBytes).count 0xC0#8 = 1056 := by
  have hcounts : (List.range 8).map (List.count 0xC0#8 ∘ pageBytes) = (List.range 8).map fun _ => 132 := by
    refine List.map_congr_left fun page hpage => ?_
    rw [Function.comp_apply, pageBytes_count (List.mem_range.mp hpage)]
  rw [List.count_flatMap, hcounts]
  rfl

/-- Settles O51: the stream is `clearPages`'s, eight pages of 274 bytes, 132 of them data. -/
theorem clearDisplayIsItsByteStream : Obligations.ClearDisplayIsItsByteStream := by
  refine ⟨(List.range 8).flatMap pageBytes, ?_, clearBytes_length, clearBytes_count, clearDisplay_eq⟩
  unfold pageBytes
  rfl

/-- Bytes sent in two parts, and then something else. -/
theorem hostThen_sendBytes_then (bs cs : List Byte) (f : State → HostOutcome) (s : State) :
    hostThen (hostSendBytes bs s) (fun t => hostThen (hostSendBytes cs t) f) = hostThen (hostSendBytes (bs ++ cs) s) f := by
  rw [← hostThen_assoc, ← hostSendBytes_append]

theorem addressSlave_eq (s : State) : addressSlave s = hostSendBytes [0x78#8] s := (hostSendBytes_one _ s).symm

theorem initSequence_eq (s : State) :
    initSequence s = hostThen (hostSendBytes
      [0x78#8, 0x80#8, 0xA8#8, 0x80#8, 0x3F#8, 0x80#8, 0xDA#8, 0x80#8, 0x12#8, 0x80#8, 0xAE#8, 0x80#8, 0xAD#8,
       0x80#8, 0x8D#8, 0x80#8, 0xA1#8, 0x80#8, 0xA6#8] s) clearDisplay := by
  simp only [initSequence, addressSlave_eq, sendDoubleCommand_eq, sendCommand_eq, hostThen_sendBytes_then]
  rfl

theorem initDisplay_of_claim {s t : State} (h : issue .claim s = .next t) : initDisplay s = initSequence t := by
  rw [initDisplay, h]

/-- Settles O52: the parts of `initSequence` are sends, which put together are one. -/
theorem initDisplayIsItsByteStream : Obligations.InitDisplayIsItsByteStream :=
  fun s => ⟨initSequence_eq s, fun _ => initDisplay_of_claim⟩

/-! ### Where the host stops -/

/-- An idle block in a transaction. -/
def InTransaction (s : State) : Prop := s.opr = .idle ∧ IdleShape .claimed s

/-- The result of a SENDBYTE that was answered `a` (42_host_command_layer.md R91). -/
def resultOfAnswer (a : Bit) : HostResult := if a = 1#1 then .nack else .ok

theorem resultOf_lifeOf (b : Byte) (s : State) : resultOf (lifeOf (.sendByte b) s) = resultOfAnswer (nextDraw s) := by
  have hnack : nackOf (lifeOf (.sendByte b) s).rsp = 1#1 ↔ nextDraw s = 1#1 := by
    rw [lifeOf_rsp, nackOf_responseOf_iff]
    exact and_iff_right rfl
  simp only [resultOf, resultOfAnswer, hnack]

/-- A byte sent in a transaction: 39 events and the response, one answer used up, and the transaction goes on. -/
theorem hostSendByte_spec (b : Byte) {s : State} (h : InTransaction s) :
    ∃ t es, hostSendByte b s = .next (t, resultOfAnswer (nextDraw s)) ∧ t.draws = s.draws.tail ∧ t.tr = s.tr ++ es ∧
      es.length = 40 ∧ InTransaction t := by
  obtain ⟨hi, hshape⟩ := h
  obtain ⟨hp, hshape'⟩ := runs_of_after (i := .sendByte b) hshape rfl
  refine ⟨lifeOf (.sendByte b) s, _, ?_, by rw [lifeOf_sendByte], lifeOf_tr _ s, rfl, lifeOf_opr _ s, hshape'⟩
  rw [hostSendByte, issue_idle hi (decode_encode _), exec_run hi hp, ← resultOf_lifeOf b]

/-- Bytes that are all acknowledged are all sent. -/
theorem hostSendBytes_acknowledged (bs : List Byte) {s : State} (h : InTransaction s) {rest : List Bit}
    (hdraws : s.draws = List.replicate bs.length 0#1 ++ rest) :
    ∃ t es, hostSendBytes bs s = .next (t, .ok) ∧ t.draws = rest ∧ t.tr = s.tr ++ es ∧ es.length = 40 * bs.length ∧
      InTransaction t := by
  induction bs generalizing s with
  | nil => exact ⟨s, [], rfl, hdraws, (List.append_nil _).symm, rfl, h⟩
  | cons b bs ih =>
    obtain ⟨t, es, hsend, htdraws, httr, hlen, ht⟩ := hostSendByte_spec b h
    have hanswer : nextDraw s = 0#1 := by rw [nextDraw, hdraws]; rfl
    rw [hanswer] at hsend
    rw [hdraws] at htdraws
    obtain ⟨u, fs, hrun, hudraws, hutr, hulen, hu⟩ := ih ht htdraws
    refine ⟨u, es ++ fs, ?_, hudraws, by rw [hutr, httr, List.append_assoc], ?_, hu⟩
    · rw [hostSendBytes, hsend]
      exact hrun
    · rw [List.length_append, hlen, hulen, List.length_cons]
      omega

/-- A byte that is not acknowledged is the last one sent. -/
theorem hostSendBytes_refused_first (b : Byte) (bs : List Byte) {s : State} (h : InTransaction s) {rest : List Bit}
    (hdraws : s.draws = 1#1 :: rest) :
    ∃ t es, hostSendBytes (b :: bs) s = .next (t, .nack) ∧ t.draws = rest ∧ t.tr = s.tr ++ es ∧ es.length = 40 ∧
      InTransaction t := by
  obtain ⟨t, es, hsend, htdraws, htr, hlen, ht⟩ := hostSendByte_spec b h
  have hanswer : nextDraw s = 1#1 := by rw [nextDraw, hdraws]
  rw [hanswer] at hsend
  rw [hdraws] at htdraws
  exact ⟨t, es, by rw [hostSendBytes, hsend]; rfl, htdraws, htr, hlen, ht⟩

/-- Settles O50: the bytes before the k-th are sent as acknowledged ones, and the k-th ends the send if it is answered 1. -/
theorem hostStopsAtTheFirstNack : Obligations.HostStopsAtTheFirstNack := by
  refine fun bs s k rest hi h => ⟨fun hk hdraws => ?_, fun hk hdraws => ?_⟩
  · have hbytes : bs = bs.take k ++ bs[k] :: bs.drop (k + 1) := by
      rw [← List.drop_eq_getElem_cons hk, List.take_append_drop]
    have hlength : (bs.take k).length = k := List.length_take_of_le hk.le
    obtain ⟨t, es, hsent, htdraws, httr, hlen, ht⟩ :=
      hostSendBytes_acknowledged (bs.take k) ⟨hi, h⟩ (by rw [hlength]; exact hdraws)
    obtain ⟨u, fs, hlast, hudraws, hutr, hulen, hu⟩ := hostSendBytes_refused_first bs[k] (bs.drop (k + 1)) ht htdraws
    refine ⟨u, es ++ fs, ?_, hudraws, by rw [hutr, httr, List.append_assoc], ?_, hu⟩
    · rw [hbytes, hostSendBytes_append, hsent]
      exact hlast
    · rw [List.length_append, hlen, hulen, hlength]
      omega
  · subst hk
    exact hostSendBytes_acknowledged bs ⟨hi, h⟩ hdraws

/-! ### The bus is let go -/

/-- A host operation that ends, with either result, inside the transaction. -/
def StaysInTransaction (a : HostOutcome) : Prop := ∃ t r, a = .next (t, r) ∧ InTransaction t

theorem staysInTransaction_then {a : HostOutcome} {b : State → HostOutcome} (ha : StaysInTransaction a)
    (hb : ∀ t, InTransaction t → StaysInTransaction (b t)) : StaysInTransaction (hostThen a b) := by
  obtain ⟨t, r, rfl, ht⟩ := ha
  cases r with
  | ok => exact hb t ht
  | nack => exact ⟨t, .nack, rfl, ht⟩

theorem staysInTransaction_sendBytes (bs : List Byte) {s : State} (h : InTransaction s) :
    StaysInTransaction (hostSendBytes bs s) := by
  induction bs generalizing s with
  | nil => exact ⟨s, .ok, rfl, h⟩
  | cons b bs ih =>
    obtain ⟨t, _, hsend, -, -, -, ht⟩ := hostSendByte_spec b h
    exact staysInTransaction_then ⟨t, _, hsend, ht⟩ fun _ => ih

theorem staysInTransaction_initSequence {s : State} (h : InTransaction s) : StaysInTransaction (initSequence s) := by
  rw [initSequence_eq]
  refine staysInTransaction_then (staysInTransaction_sendBytes _ h) fun t ht => ?_
  rw [clearDisplay_eq]
  exact staysInTransaction_sendBytes _ ht

/-- A claim of an idle, Released bus begins a transaction. -/
theorem issue_claim {s : State} (hi : s.opr = .idle) (h : IdleShape .released s) :
    ∃ t, issue .claim s = .next t ∧ InTransaction t := by
  obtain ⟨hp, hshape⟩ := runs_of_after (i := .claim) h rfl
  exact ⟨_, (issue_idle hi (decode_encode _)).trans (exec_run hi hp), lifeOf_opr _ s, hshape⟩

/-- A RELEASE ends a transaction. -/
theorem deinitDisplay_next {s : State} (h : InTransaction s) :
    ∃ t, deinitDisplay s = .next t ∧ t.opr = .idle ∧ IdleShape .released t := by
  obtain ⟨hi, hshape⟩ := h
  obtain ⟨hp, hshape'⟩ := runs_of_after (i := .release) hshape rfl
  exact ⟨_, (issue_idle hi (decode_encode _)).trans (exec_run hi hp), lifeOf_opr _ s, hshape'⟩

/-- The same of an operation on the host's state. -/
def StaysInTransactionH (a : Host.Outcome (HostState × HostResult) Fault Refusal) : Prop :=
  ∃ g r, a = .next (g, r) ∧ InTransaction g.block

theorem staysInTransactionH_then {a : Host.Outcome (HostState × HostResult) Fault Refusal}
    {b : HostState → Host.Outcome (HostState × HostResult) Fault Refusal} (ha : StaysInTransactionH a)
    (hb : ∀ g : HostState, InTransaction g.block → StaysInTransactionH (b g)) : StaysInTransactionH (hostThenH a b) := by
  obtain ⟨g, r, rfl, hg⟩ := ha
  cases r with
  | ok => exact hb g hg
  | nack => exact ⟨g, .nack, rfl, hg⟩

theorem staysInTransactionH_toggleDisplay {h : HostState} (ht : InTransaction h.block) :
    StaysInTransactionH (toggleDisplay h) := by
  obtain ⟨t, r, hsend, ht'⟩ := staysInTransaction_sendBytes [0x80#8, powerByte (!h.displayOn)] ht
  exact ⟨_, r, by rw [toggleDisplay, sendCommand_eq, hsend], ht'⟩

/-- Whatever state the host finds the block in, the entry sequence's reset makes the claim possible. -/
theorem staysInTransactionH_initDisplayH (h : HostState) : StaysInTransactionH (initDisplayH (initPins h)) := by
  obtain ⟨t, hclaim, ht⟩ := issue_claim (s := (initPins h).block) rfl ⟨released_reset, rfl, rfl⟩
  obtain ⟨u, r, hinit, hu⟩ := staysInTransaction_initSequence ht
  exact ⟨_, r, by rw [initDisplayH, initDisplay_of_claim hclaim, hinit], hu⟩

theorem releaseAfter_of_staysInTransactionH {a : Host.Outcome (HostState × HostResult) Fault Refusal}
    (ha : StaysInTransactionH a) :
    ∃ g r, releaseAfter a = .next (g, r) ∧ g.block.opr = .idle ∧ IdleShape .released g.block := by
  obtain ⟨g, r, rfl, hg⟩ := ha
  obtain ⟨t, hrelease, ht⟩ := deinitDisplay_next hg
  exact ⟨⟨t, g.displayOn⟩, r, by rw [releaseAfter, hrelease], ht⟩

/-- Settles O54: after the reset each part stays in the transaction whatever it is answered, and the RELEASE ends it. -/
theorem processEntryAlwaysReleases : Obligations.ProcessEntryAlwaysReleases := by
  intro h
  have toggles (g : HostState) (hg : InTransaction g.block) := staysInTransactionH_toggleDisplay hg
  exact releaseAfter_of_staysInTransactionH
    (staysInTransactionH_then (staysInTransactionH_then (staysInTransactionH_initDisplayH h) toggles) toggles)

end Sys2Proof.Machine
end
